-- ==== Sys2Proof/Word.lean ====
section
/-! DEFINITION. The words of the CORE and the two truncations of 00_scope.md R18. -/

namespace Sys2Proof

/-- A byte: 8 bits (R16). -/
abbrev Byte := BitVec 8

/-- A word: 16 bits (R16): an opcode word, I, PC, a return address. -/
abbrev Word := BitVec 16

/-- A nibble: 4 bits (R16). -/
abbrev Nibble := BitVec 4

/-- A 12-bit address field `nnn` (R68). -/
abbrev Addr12 := BitVec 12

/-- The index of a general register V0..VF (R25): a 4-bit field, so no invalid index exists (R26). -/
abbrev RegIdx := BitVec 4

/-- A key number 0..F (R44, R144). -/
abbrev Key := BitVec 4

/-- `trunc8(v) = v mod 256` (R18). -/
def trunc8 (v : Nat) : Byte := BitVec.ofNat 8 v

/-- `trunc16(v) = v mod 65536` (R18). -/
def trunc16 (v : Nat) : Word := BitVec.ofNat 16 v

end Sys2Proof
end

