-- ==== Sys2Proof/Syntax.lean ====
section
/-! DEFINITION. The instruction set: one constructor per row of spec/opcode_table.json (30_encoding.md R70). -/

namespace Sys2Proof

/-- The 35 operations of R70, with their operand fields (R68, R69). `ign` is the low nibble that 5xy_ and 9xy_
ignore (R71, R95, R96): kept as a field, so that an instruction determines its word. -/
inductive Instr where
  | sys     (nnn : Addr12)              -- 0nnn SYS nnn        R89
  | cls                                 -- 00E0 CLS            R123
  | ret                                 -- 00EE RET            R90
  | jp      (nnn : Addr12)              -- 1nnn JP nnn         R91
  | call    (nnn : Addr12)              -- 2nnn CALL nnn       R92
  | seImm   (x : RegIdx) (kk : Byte)    -- 3xkk SE Vx, kk      R93
  | sneImm  (x : RegIdx) (kk : Byte)    -- 4xkk SNE Vx, kk     R94
  | seReg   (x y : RegIdx) (ign : Nibble)  -- 5xy_ SE Vx, Vy   R95
  | ldImm   (x : RegIdx) (kk : Byte)    -- 6xkk LD Vx, kk      R100
  | addImm  (x : RegIdx) (kk : Byte)    -- 7xkk ADD Vx, kk     R101
  | ldReg   (x y : RegIdx)              -- 8xy0 LD Vx, Vy      R102
  | orReg   (x y : RegIdx)              -- 8xy1 OR Vx, Vy      R103
  | andReg  (x y : RegIdx)              -- 8xy2 AND Vx, Vy     R104
  | xorReg  (x y : RegIdx)              -- 8xy3 XOR Vx, Vy     R105
  | addReg  (x y : RegIdx)              -- 8xy4 ADD Vx, Vy     R106
  | sub     (x y : RegIdx)              -- 8xy5 SUB Vx, Vy     R107
  | shr     (x y : RegIdx)              -- 8xy6 SHR Vx, Vy     R109
  | subn    (x y : RegIdx)              -- 8xy7 SUBN Vx, Vy    R108
  | shl     (x y : RegIdx)              -- 8xyE SHL Vx, Vy     R110
  | sneReg  (x y : RegIdx) (ign : Nibble)  -- 9xy_ SNE Vx, Vy  R96
  | ldI     (nnn : Addr12)              -- Annn LD I, nnn      R114
  | jpV0    (nnn : Addr12)              -- Bnnn JP V0, nnn     R97
  | rnd     (x : RegIdx) (kk : Byte)    -- Cxkk RND Vx, kk     R111
  | drw     (x y : RegIdx) (n : Nibble) -- Dxyn DRW Vx, Vy, n  R124
  | skp     (x : RegIdx)                -- Ex9E SKP Vx         R130
  | sknp    (x : RegIdx)                -- ExA1 SKNP Vx        R131
  | ldVxDt  (x : RegIdx)                -- Fx07 LD Vx, DT      R126
  | ldVxK   (x : RegIdx)                -- Fx0A LD Vx, K       R132
  | ldDtVx  (x : RegIdx)                -- Fx15 LD DT, Vx      R127
  | ldStVx  (x : RegIdx)                -- Fx18 LD ST, Vx      R128
  | addIVx  (x : RegIdx)                -- Fx1E ADD I, Vx      R115
  | ldFVx   (x : RegIdx)                -- Fx29 LD F, Vx       R116
  | ldBVx   (x : RegIdx)                -- Fx33 LD B, Vx       R117
  | ldMemVx (x : RegIdx)                -- Fx55 LD [I], Vx     R118
  | ldVxMem (x : RegIdx)                -- Fx65 LD Vx, [I]     R119
  deriving DecidableEq, Repr

end Sys2Proof
end

