-- ==== Sys2Proof/Config.lean ====
section
/-! DEFINITION. What an implementation fixes (00_scope.md R11, R14) and the free values of a step. The default values
of the parameters are in Machine/Launch.lean. -/

namespace Sys2Proof

/-! ### Fixed parameters (R11) -/

/-- MEM_SIZE: 4096 bytes, addresses 0x000..0xFFF. -/
abbrev memSize : Nat := 4096
/-- STACK_DEPTH: 16 entries. -/
abbrev stackDepth : Nat := 16

/-! ### Open parameters (R14) -/

/-- P_SYS: what 0nnn does (R89). -/
inductive SysMode where | nop | halt
  deriving DecidableEq, Repr
/-- P_SHIFT_SRC: the register a shift reads (R109, R110). -/
inductive ShiftSrc where | vx | vy
  deriving DecidableEq, Repr
/-- P_FX1E_VF: whether Fx1E writes VF (R115). -/
inductive Fx1eVf where | unchanged | overflow12
  deriving DecidableEq, Repr
/-- P_LDST_I: whether Fx55 and Fx65 advance I (R118, R119). -/
inductive LdstI where | unchanged | increment
  deriving DecidableEq, Repr
/-- P_LOGIC_VF: whether 8xy1, 8xy2, 8xy3 clear VF (R103..R105). -/
inductive LogicVf where | unchanged | reset
  deriving DecidableEq, Repr
/-- P_JUMP_REG: the offset register of Bnnn (R97). -/
inductive JumpReg where | v0 | vx
  deriving DecidableEq, Repr
/-- P_KEY_INDEX: what Ex9E and ExA1 do with a key number above 15 (R129). -/
inductive KeyIndex where | halt | lowNibble
  deriving DecidableEq, Repr
/-- P_FONT_DIGIT: how Fx29 reads a digit above 15 (R116). -/
inductive FontDigit where | lowNibble | unmasked
  deriving DecidableEq, Repr
/-- P_KEY_SELECT: which of several pressed keys ends a wait (R81): any of them, or the lowest. -/
inductive KeySelect where | any | lowest
  deriving DecidableEq, Repr

/-- The parameters of R14: "The model takes each one as an argument". `initMem` is INIT_MEM by address from 0x000,
and a byte past its end is 0x00: every content of the 4096 bytes is some `initMem`. -/
structure Params where
  fontBase  : Nat
  fontData  : Vector Byte 80
  sys       : SysMode
  shiftSrc  : ShiftSrc
  fx1eVf    : Fx1eVf
  ldstI     : LdstI
  logicVf   : LogicVf
  jumpReg   : JumpReg
  keyIndex  : KeyIndex
  fontDigit : FontDigit
  keySelect : KeySelect
  initMem   : List Byte
  deriving DecidableEq, Repr

/-- The values R14 allows: "any address with FONT_BASE + 80 ≤ 0x200". -/
abbrev Params.ok (p : Params) : Prop := p.fontBase + 80 ≤ 0x200

/-! ### Free values -/

/-- FREE VALUE. The byte the randomness collaborator supplies on the `n`-th draw: "every byte 0x00–0xFF is possible,
under no law" (60_exceptions.md R147). No body: nothing can evaluate it. Log entry 4. -/
opaque Config.randomByte : Nat → Byte

/-- FREE VALUE. A number that picks, on the `n`-th choice, one of several pressed keys under P_KEY_SELECT = Any
(40_cycle.md R81); its remainder by the number of pressed keys is the place taken. Log entry 5. -/
opaque Config.keyChoice : Nat → Nat

end Sys2Proof
end

