-- ==== Sys2Proof/Machine/Launch.lean ====
section
/-! DEFINITION. The default values of the parameters (00_scope.md R12, R14) and what memory holds at construction
(70_reset_and_hazards.md R153). -/

namespace Sys2Proof.Machine

/-- LOAD_OFFSET: the load address and entry point (R12, R155). -/
def loadOffset : Nat := 0x200

/-- FONT_DATA: the 16 glyphs of 5 bytes, glyph 0 first, top row first (20_memory.md R56). -/
def defaultFont : Vector Byte 80 := #v[
  0xF0, 0x90, 0x90, 0x90, 0xF0,  0x20, 0x60, 0x20, 0x20, 0x70,
  0xF0, 0x10, 0xF0, 0x80, 0xF0,  0xF0, 0x10, 0xF0, 0x10, 0xF0,
  0x90, 0x90, 0xF0, 0x10, 0x10,  0xF0, 0x80, 0xF0, 0x10, 0xF0,
  0xF0, 0x80, 0xF0, 0x90, 0xF0,  0xF0, 0x10, 0x20, 0x40, 0x40,
  0xF0, 0x90, 0xF0, 0x90, 0xF0,  0xF0, 0x90, 0xF0, 0x10, 0xF0,
  0xF0, 0x90, 0xF0, 0x90, 0x90,  0xE0, 0x90, 0xE0, 0x90, 0xE0,
  0xF0, 0x80, 0x80, 0x80, 0xF0,  0xE0, 0x90, 0x90, 0x90, 0xE0,
  0xF0, 0x80, 0xF0, 0x80, 0xF0,  0xF0, 0x80, 0xF0, 0x80, 0x80]

/-- The defaults of R14. DESIGN CHOICE and PRESUMED values, each the spec's own default: log entries 1, 2, 3.
INIT_MEM is the simulator's 0x00. -/
def defaultParams : Params where
  fontBase  := 0x050
  fontData  := defaultFont
  sys       := .nop
  shiftSrc  := .vx
  fx1eVf    := .unchanged
  ldstI     := .unchanged
  logicVf   := .unchanged
  jumpReg   := .v0
  keyIndex  := .halt
  fontDigit := .lowNibble
  keySelect := .any
  initMem   := []

/-- Address `a` holds a font glyph byte: FONT_BASE .. FONT_BASE+79 (R55). -/
def inFont (p : Params) (a : Nat) : Bool := p.fontBase ≤ a && a < p.fontBase + 80

/-- INIT_MEM at an address (R14). -/
def initMemByte (p : Params) (a : Nat) : Byte := p.initMem.getD a 0x00

/-- What an address reads as when nothing has written it: FONT_DATA in the font, INIT_MEM elsewhere (R153). The ONE
definition of what an unlisted address of memory reads as. -/
def launchByte (p : Params) (a : Nat) : Byte :=
  if inFont p a then p.fontData.toList.getD (a - p.fontBase) 0x00 else initMemByte p a

end Sys2Proof.Machine
end

