-- ==== Sys2Proof/Machine/State.lean ====
section
/-! DEFINITION. The architectural state of one CORE instance (10_state.md R24), as plain data, the state after
construction and reset, and the reasons a step can stop. -/

namespace Sys2Proof.Machine

/-- The seven error kinds (60_exceptions.md R133, 10_state.md R47). -/
inductive HaltReason where
  | outOfBounds | imageTooLarge | invalidRegister | invalidKey | stackOverflow | stackUnderflow | unknownOpcode
  deriving DecidableEq, Repr

/-- The interpreter status (R45, R46, R47). `opcode` is none when the fetch itself raised, or for ImageTooLarge. -/
inductive Status where
  | running
  | waitingForKey (r : RegIdx)
  | halted (reason : HaltReason) (pc : Word) (opcode : Option Word)
  deriving DecidableEq, Repr

/-- Memory: the bytes that differ from `launchByte`, by strictly rising address. -/
abbrev Memory := List Host.Cell

/-- The canonical form: addresses strictly rise, lie in the 4096 bytes (R51), and no entry equals what its address
reads as unlisted. -/
abbrev Memory.wf (p : Params) (m : Memory) : Prop :=
  (m.map Prod.fst).Pairwise (· < ·) ∧ ∀ c ∈ m, c.1 < memSize ∧ c.2 ≠ launchByte p c.1

/-- The display: 32 rows, row 0 at the top; bit c of a row is the pixel of column c, column 0 at the left (R42, R43).
Log entry 9. -/
abbrev Display := Vector (BitVec 64) 32

/-- The state tuple of R24, then the model's own fields: the parameters (log entry 1) and the two counters that index
the free values (log entries 4, 5). -/
structure State where
  /-- V0..VF (R25). -/
  v       : Vector Byte 16
  /-- The index register I (R32). -/
  i       : Word
  /-- The program counter (R33). -/
  pc      : Word
  /-- The return stack, oldest entry first; SP is its length (R37). -/
  stack   : List Word
  /-- The delay timer (R40). -/
  dt      : Byte
  /-- The sound timer (R40). -/
  st      : Byte
  /-- The 4096 bytes (R51). -/
  mem     : Memory
  /-- The 64 x 32 pixels (R42). -/
  disp    : Display
  /-- The input latch: entry k is true when key k is pressed (R44). -/
  keys    : Vector Bool 16
  /-- The interpreter status (R45). -/
  status  : Status
  /-- MODEL'S OWN: the parameters of R14. No cycle writes it. -/
  cfg     : Params
  /-- MODEL'S OWN: how many random bytes have been drawn. -/
  draws   : Nat
  /-- MODEL'S OWN: how many free key choices have been made. -/
  choices : Nat
  deriving DecidableEq, Repr

/-- A freshly constructed instance (70_reset_and_hazards.md R153): the font installed, INIT_MEM elsewhere, the rest as
after a load of an empty image (10_state.md R50). -/
def State.construct (p : Params) : State where
  v       := Vector.replicate 16 0
  i       := 0
  pc      := trunc16 loadOffset
  stack   := []
  dt      := 0
  st      := 0
  mem     := []
  disp    := Vector.replicate 32 0
  keys    := Vector.replicate 16 false
  status  := .running
  cfg     := p
  draws   := 0
  choices := 0

/-- The machine right after reset, under the default parameters (R50, R153, R14). How a program comes to run from it:
log entry 7. -/
def State.reset : State := State.construct defaultParams

/-- Why a step could stop outside the machine's own behaviour. Every error of the CORE is a next state with status
Halted (R134), not a fault: log entry 6. -/
inductive Fault where
  /-- The InvalidRegister error of R26: "unreachable from any program". Raised by NO step: register indices are 4-bit.
  Kept as 93_implementation_defined.md row 20 allows, "a fault that no step raises". Safe. -/
  | invalidRegister
  deriving DecidableEq, Repr

/-- Why an instruction could have no meaning. -/
inductive Refusal where
  /-- Raised only by an arm of `exec` whose instruction has no meaning yet; no arm does. Safe. -/
  | notModelled (mnemonic : String)
  deriving DecidableEq, Repr

/-- What a meaning answers. -/
abbrev Result := Host.Outcome State Fault Refusal

end Sys2Proof.Machine
end

