-- ==== Sys2Proof/Machine/Ops.lean ====
section
/-! DEFINITION. The named operations over memory, registers, stack, display and keys (00_scope.md R19), raising an
error (60_exceptions.md R134), and the only way back from one, a program load (R136). -/

namespace Sys2Proof.Machine

/-! ### Memory (20_memory.md R51 to R53) -/

/-- The byte listed at `a`, or `d` when none is. -/
def memLookup (d : Byte) (a : Nat) : Memory → Byte
  | [] => d
  | (k, b) :: m => if k = a then b else memLookup d a m

/-- List the byte `b` at `a`, keeping addresses rising. -/
def memInsert (a : Nat) (b : Byte) : Memory → Memory
  | [] => [(a, b)]
  | (k, c) :: m =>
    if a < k then (a, b) :: (k, c) :: m
    else if a = k then (a, b) :: m
    else (k, c) :: memInsert a b m

/-- List nothing at `a`. -/
def memErase (a : Nat) (m : Memory) : Memory := m.filter fun c => c.1 != a

/-- The byte at `a`. -/
def memRead (p : Params) (m : Memory) (a : Nat) : Byte := memLookup (launchByte p a) a m

/-- Memory with `b` at `a`, in canonical form. -/
def memWrite (p : Params) (m : Memory) (a : Nat) (b : Byte) : Memory :=
  if b = launchByte p a then memErase a m else memInsert a b m

/-- Bytes written at `a`, `a + 1`, ... in ascending order (R61). -/
def memWriteList (p : Params) (m : Memory) (a : Nat) : List Byte → Memory
  | [] => m
  | b :: bs => memWriteList p (memWrite p m a b) (a + 1) bs

/-- The `n` addresses from `a` are all below 4096. Addresses are unbounded naturals, never wrapped (R52). -/
def inBounds (a n : Nat) : Bool := n == 0 || a + n ≤ memSize

/-- The byte at `a`, whatever `a` is: for statements about all of memory. -/
def State.byteAt (s : State) (a : Nat) : Byte := memRead s.cfg s.mem a

/-- `MemRead(a, 1)`: none is OutOfBounds (R52). -/
def State.readByte (s : State) (a : Nat) : Option Byte := if a < memSize then some (s.byteAt a) else none

/-- `n` bytes at ascending addresses, all checked before any access (R113); none is OutOfBounds. -/
def State.readBytes (s : State) (a n : Nat) : Option (List Byte) :=
  if inBounds a n then some ((List.range n).map fun k => s.byteAt (a + k)) else none

/-- Bytes stored at ascending addresses, all checked before any write (R62, R113); none is OutOfBounds. -/
def State.writeBytes (s : State) (a : Nat) (bs : List Byte) : Option State :=
  if inBounds a bs.length then some { s with mem := memWriteList s.cfg s.mem a bs } else none

/-- `MemWrite(a, 1, b)`: none is OutOfBounds (R52). -/
def State.writeByte (s : State) (a : Nat) (b : Byte) : Option State := s.writeBytes a [b]

/-- The fetch: the byte at PC, then the byte at PC + 1, composed big-endian; none is OutOfBounds (R58, R59, R82). -/
def State.fetch (s : State) : Option Word :=
  match s.readByte s.pc.toNat, s.readByte (s.pc.toNat + 1) with
  | some hi, some lo => some (composeWord hi lo)
  | _, _ => none

/-! ### Registers -/

/-- VF: register 15 (R28). -/
def vf : RegIdx := 0xF

/-- `V[x]` (R19). -/
def State.getV (s : State) (x : RegIdx) : Byte := s.v[x.toNat]'x.isLt

/-- `V[x] <- b` (R19). -/
def State.setV (s : State) (x : RegIdx) (b : Byte) : State := { s with v := s.v.set x.toNat b x.isLt }

/-- V0..Vx, in index order. -/
def State.regsUpTo (s : State) (x : RegIdx) : List Byte := s.v.toList.take (x.toNat + 1)

/-- `V[k] <- bs[k]` for every k the list has (Fx65's loop, R119). -/
def State.setRegsFrom0 (s : State) (bs : List Byte) : State :=
  { s with v := Vector.ofFn fun k : Fin 16 => bs.getD k.val s.v[k] }

/-- `I <- w` (R19). -/
def State.setI (s : State) (w : Word) : State := { s with i := w }

/-- `PC <- w` (R19). -/
def State.setPc (s : State) (w : Word) : State := { s with pc := w }

/-- `PC <- PC + n`, stored as trunc16 (R36). -/
def State.advanceBy (s : State) (n : Nat) : State := s.setPc (trunc16 (s.pc.toNat + n))

/-- The default `PC <- PC + 2` (R34, R84). -/
def State.advance (s : State) : State := s.advanceBy 2

/-- A skip instruction's PC: + 4 when its condition holds, + 2 when not (R88). -/
def State.skipIf (s : State) (c : Bool) : State := s.advanceBy (if c then 4 else 2)

/-! ### Return stack (R37 to R39) -/

/-- `Push(a)`; none is StackOverflow (R38). -/
def State.push (s : State) (a : Word) : Option State :=
  if s.stack.length < stackDepth then some { s with stack := s.stack ++ [a] } else none

/-- `Pop()`: the last entry and the state without it; none is StackUnderflow (R39). -/
def State.pop (s : State) : Option (Word × State) :=
  match s.stack.getLast? with
  | some a => some (a, { s with stack := s.stack.dropLast })
  | none => none

/-! ### Display (R42, 44_display.md) -/

/-- A place on the display: column 0..63, row 0..31. -/
abbrev Place := Fin 64 × Fin 32

/-- `Pixel(x, y)` (R42). -/
def pixel (d : Display) (c : Place) : Bool := d[c.2].getLsbD c.1.val

/-- The display with every pixel off (R123). -/
def blankDisplay : Display := Vector.replicate 32 0

/-- `Pixel(x, y) <- Pixel(x, y) ^ 1` (R124). -/
def togglePixel (d : Display) (c : Place) : Display :=
  d.set c.2.val (d[c.2] ^^^ BitVec.twoPow 64 c.1.val) c.2.isLt

/-- Where pixel (row r, bit column j) of a sprite at (x0, y0) lands: both axes wrap (R121). -/
def spritePlace (x0 y0 : Byte) (r j : Nat) : Place := (Fin.ofNat 64 (x0.toNat + j), Fin.ofNat 32 (y0.toNat + r))

/-- The places of the 1 bits of sprite row `r`, left to right: bit 7 is the leftmost (R120). -/
def rowPlaces (x0 y0 : Byte) (r : Nat) (b : Byte) : List Place :=
  ((List.range 8).filter fun j => b.getLsbD (7 - j)).map (spritePlace x0 y0 r)

/-- The places a sprite's 1 bits land on, row by row from row `r` (R120, R124). -/
def spritePlaces (x0 y0 : Byte) (r : Nat) : List Byte → List Place
  | [] => []
  | b :: bs => rowPlaces x0 y0 r b ++ spritePlaces x0 y0 (r + 1) bs

/-- Toggle each place in turn; the flag is true once a pixel went from on to off (R124's loop). -/
def drawPlaces (d : Display) (c : Bool) : List Place → Display × Bool
  | [] => (d, c)
  | p :: ps => drawPlaces (togglePixel d p) (c || pixel d p) ps

/-! ### Input latch (R44) -/

/-- `Key(k)`, `is_pressed(k)` (R44, R144). -/
def State.isPressed (s : State) (k : Key) : Bool := s.keys[k.toNat]'k.isLt

/-- The pressed keys, lowest first: `P` of R81. -/
def State.pressedKeys (s : State) : List Key := ((List.range 16).map (BitVec.ofNat 4)).filter s.isPressed

/-! ### Raising an error, and the return (60_exceptions.md section 2 and 3) -/

/-- `raise E(pc = PC, opcode = o)`: the status becomes Halted and nothing else changes (R134). The ONE operation that
takes an error. -/
def raise (e : HaltReason) (o : Option Word) (s : State) : State := { s with status := .halted e s.pc o }

/-- An instruction's own error: the opcode recorded is its word (R133). -/
def raiseIn (i : Instr) (e : HaltReason) (s : State) : Result := .next (raise e (some (encode i)) s)

/-- The bytes that a load leaves: the font (R57, R154). -/
def keepFont (p : Params) (m : Memory) : Memory := m.filter fun c => inFont p c.1

/-- A load of `n` bytes is refused: it runs past 4096, or would overlap the font (R57, R154, D24). -/
def loadRefused (p : Params) (n : Nat) : Bool :=
  4096 < loadOffset + n || (n != 0 && p.fontBase < loadOffset + n && loadOffset < p.fontBase + 80)

/-- The parameters with another INIT_MEM. -/
def withInitMem (p : Params) (initMem : List Byte) : Params := { p with initMem := initMem }

/-- The state a load leaves when it is not refused: everything as after construction (R50), but for the image at
LOAD_OFFSET and the font, which is neither written nor restored (R154). The counters of the free values run on. -/
def State.install (p : Params) (image : List Byte) (s : State) : State :=
  { State.construct p with
    mem     := memWriteList p (keepFont p s.mem) loadOffset image
    draws   := s.draws
    choices := s.choices }

/-- `load(image)`, the CORE's only reset and the only way out of Halted (R136, R154). `initMem` is this launch's
INIT_MEM: what every byte outside the font and the image holds afterwards (log entry 10). -/
def State.load (image initMem : List Byte) (s : State) : State :=
  if loadRefused s.cfg image.length then
    { s with status := .halted .imageTooLarge (trunc16 loadOffset) none }
  else
    s.install (withInitMem s.cfg initMem) image

end Sys2Proof.Machine
end

