-- ==== Sys2Proof/Machine/Operands.lean ====
section
/-! DEFINITION. The operand forms that depend on a parameter of 00_scope.md R14, and the effective address. -/

namespace Sys2Proof.Machine

/-- The value a shift reads: Vx or Vy by P_SHIFT_SRC (42_alu.md R109, R110). -/
def State.shiftOperand (s : State) (x y : RegIdx) : Byte :=
  match s.cfg.shiftSrc with
  | .vx => s.getV x
  | .vy => s.getV y

/-- The offset register of Bnnn: V0, or Vx with x = w[11:8] = nnn[11:8], by P_JUMP_REG (41_control_flow.md R97). -/
def State.jumpRegister (s : State) (nnn : Addr12) : RegIdx :=
  match s.cfg.jumpReg with
  | .v0 => 0
  | .vx => nnn.extractLsb' 8 4

/-- The key that Ex9E and ExA1 test: none is InvalidKey (45_timers_input.md R129). -/
def State.keyOperand (s : State) (x : RegIdx) : Option Key :=
  match s.cfg.keyIndex with
  | .halt => if (s.getV x).toNat > 15 then none else some ((s.getV x).setWidth 4)
  | .lowNibble => some ((s.getV x).setWidth 4)

/-- The digit of Fx29, by P_FONT_DIGIT (43_index_memory.md R116). -/
def State.fontDigit (s : State) (x : RegIdx) : Nat :=
  match s.cfg.fontDigit with
  | .lowNibble => (s.getV x &&& 0x0F).toNat
  | .unmasked => (s.getV x).toNat

/-- The address of the first byte of a data access, an unbounded natural: byte k is at I + k (R112). -/
def State.dataAddr (s : State) : Nat := s.i.toNat

/-- I after Fx55 or Fx65 with last register x, by P_LDST_I (R118, R119). -/
def State.bumpI (s : State) (x : RegIdx) : State :=
  match s.cfg.ldstI with
  | .unchanged => s
  | .increment => s.setI (trunc16 (s.i.toNat + x.toNat + 1))

/-- The three decimal digits of a byte, hundreds first (R117). -/
def bcdDigits (b : Byte) : List Byte := [trunc8 (b.toNat / 100), trunc8 (b.toNat / 10 % 10), trunc8 (b.toNat % 10)]

/-- Which of the pressed keys `k :: ks` ends a wait, and the choice counter after: the lowest, or, under
P_KEY_SELECT = Any, a free choice among them (40_cycle.md R81; log entry 5). -/
def State.chooseKey (s : State) (k : Key) (ks : List Key) : Key × Nat :=
  match s.cfg.keySelect, ks with
  | .lowest, _ => (k, s.choices)
  | .any, [] => (k, s.choices)
  | .any, ks@(_ :: _) => ((k :: ks).getD (Config.keyChoice s.choices % (k :: ks).length) k, s.choices + 1)

end Sys2Proof.Machine
end

