-- ==== Sys2Proof/Machine/Flags.lean ====
section
/-! DEFINITION. Every flag the instructions write to VF (10_state.md R28 to R30, 42_alu.md R98, R99). -/

namespace Sys2Proof.Machine

/-- A flag as the byte written to VF: 1 or 0 (R29). -/
def flagByte (c : Bool) : Byte := if c then 1 else 0

/-- 8xy4: the sum exceeds 255 (R106). -/
def carryOf (a b : Byte) : Bool := a.toNat + b.toNat > 255

/-- 8xy5, 8xy7: no borrow, minuend ≥ subtrahend (R107, R108). -/
def noBorrow (a b : Byte) : Bool := a.toNat ≥ b.toNat

/-- The exact difference, wrapped mod 256: `trunc8(a + 256 - b)` (R98). -/
def subByte (a b : Byte) : Byte := trunc8 (a.toNat + 256 - b.toNat)

/-- 8xy6: the bit shifted out, bit 0 (R109). -/
def shiftedOutRight (a : Byte) : Bool := a.getLsbD 0

/-- 8xyE: the bit shifted out, bit 7 (R110). -/
def shiftedOutLeft (a : Byte) : Bool := a.getLsbD 7

/-- Fx1E under Overflow12: the sum leaves the 12-bit address range (43_index_memory.md R115). -/
def overflow12 (t : Nat) : Bool := t > 0x0FFF

/-- The result to Vx, then the flag to VF: with x = F the flag wins (R30, R99). -/
def State.setVFlag (s : State) (x : RegIdx) (result : Byte) (flag : Bool) : State :=
  (s.setV x result).setV vf (flagByte flag)

/-- A logic result to Vx, then VF ← 0 under P_LOGIC_VF = Reset (R103 to R105). -/
def State.setVLogic (s : State) (x : RegIdx) (result : Byte) : State :=
  match s.cfg.logicVf with
  | .unchanged => s.setV x result
  | .reset => (s.setV x result).setV vf 0

end Sys2Proof.Machine
end

