-- ==== Sys2Proof/Machine/Alu.lean ====
section
/-! DEFINITION. Register loads, arithmetic and logic (42_alu.md). No rule of this family raises. -/

namespace Sys2Proof.Machine

/-- 6xkk (R100). -/
def execLdImm (x : RegIdx) (kk : Byte) (s : State) : Result := .next (s.setV x kk).advance

/-- 7xkk: no flag (R101). -/
def execAddImm (x : RegIdx) (kk : Byte) (s : State) : Result :=
  .next (s.setV x (trunc8 ((s.getV x).toNat + kk.toNat))).advance

/-- 8xy0 (R102). -/
def execLdReg (x y : RegIdx) (s : State) : Result := .next (s.setV x (s.getV y)).advance

/-- 8xy1 (R103). -/
def execOrReg (x y : RegIdx) (s : State) : Result := .next (s.setVLogic x (s.getV x ||| s.getV y)).advance

/-- 8xy2 (R104). -/
def execAndReg (x y : RegIdx) (s : State) : Result := .next (s.setVLogic x (s.getV x &&& s.getV y)).advance

/-- 8xy3 (R105). -/
def execXorReg (x y : RegIdx) (s : State) : Result := .next (s.setVLogic x (s.getV x ^^^ s.getV y)).advance

/-- 8xy4: VF is the carry (R106). -/
def execAddReg (x y : RegIdx) (s : State) : Result :=
  .next (s.setVFlag x (trunc8 ((s.getV x).toNat + (s.getV y).toNat)) (carryOf (s.getV x) (s.getV y))).advance

/-- 8xy5: Vx - Vy, VF is no borrow (R107). -/
def execSub (x y : RegIdx) (s : State) : Result :=
  .next (s.setVFlag x (subByte (s.getV x) (s.getV y)) (noBorrow (s.getV x) (s.getV y))).advance

/-- 8xy7: Vy - Vx, VF is no borrow (R108). -/
def execSubn (x y : RegIdx) (s : State) : Result :=
  .next (s.setVFlag x (subByte (s.getV y) (s.getV x)) (noBorrow (s.getV y) (s.getV x))).advance

/-- 8xy6: shift right by one, VF is the bit shifted out (R109). -/
def execShr (x y : RegIdx) (s : State) : Result :=
  .next (s.setVFlag x (s.shiftOperand x y >>> 1) (shiftedOutRight (s.shiftOperand x y))).advance

/-- 8xyE: shift left by one, VF is the bit shifted out (R110). -/
def execShl (x y : RegIdx) (s : State) : Result :=
  .next (s.setVFlag x (s.shiftOperand x y <<< 1) (shiftedOutLeft (s.shiftOperand x y))).advance

/-- Cxkk with the byte `r` drawn (R111). -/
def rndWith (r : Byte) (x : RegIdx) (kk : Byte) (s : State) : State :=
  ({ s with draws := s.draws + 1 }.setV x (r &&& kk)).advance

/-- Cxkk: exactly one byte is drawn, a free value (R111, R147; log entry 4). -/
def execRnd (x : RegIdx) (kk : Byte) (s : State) : Result := .next (rndWith (Config.randomByte s.draws) x kk s)

end Sys2Proof.Machine
end

