-- ==== Sys2Proof/Machine/ControlFlow.lean ====
section
/-! DEFINITION. Control transfer and skips (41_control_flow.md). PC is the instruction's own address (R33); targets are
absolute and their alignment is not checked (R87). -/

namespace Sys2Proof.Machine

/-- 0nnn: no operation or UnknownOpcode, by P_SYS (R89). -/
def execSys (nnn : Addr12) (s : State) : Result :=
  match s.cfg.sys with
  | .nop => .next s.advance
  | .halt => raiseIn (.sys nnn) .unknownOpcode s

/-- 00EE: the popped address as is, or StackUnderflow (R90). -/
def execRet (s : State) : Result :=
  match s.pop with
  | some (a, t) => .next (t.setPc a)
  | none => raiseIn .ret .stackUnderflow s

/-- 1nnn (R91). -/
def execJp (nnn : Addr12) (s : State) : Result := .next (s.setPc (nnn.setWidth 16))

/-- 2nnn: push PC + 2, or StackOverflow (R92). -/
def execCall (nnn : Addr12) (s : State) : Result :=
  match s.push (trunc16 (s.pc.toNat + 2)) with
  | some t => .next (t.setPc (nnn.setWidth 16))
  | none => raiseIn (.call nnn) .stackOverflow s

/-- 3xkk (R93). -/
def execSeImm (x : RegIdx) (kk : Byte) (s : State) : Result := .next (s.skipIf (s.getV x == kk))

/-- 4xkk (R94). -/
def execSneImm (x : RegIdx) (kk : Byte) (s : State) : Result := .next (s.skipIf (s.getV x != kk))

/-- 5xy_: every low nibble is the same comparison (R95). -/
def execSeReg (x y : RegIdx) (s : State) : Result := .next (s.skipIf (s.getV x == s.getV y))

/-- 9xy_: every low nibble is the same comparison (R96). -/
def execSneReg (x y : RegIdx) (s : State) : Result := .next (s.skipIf (s.getV x != s.getV y))

/-- Bnnn: the sum is not reduced to 12 bits (R97). -/
def execJpV0 (nnn : Addr12) (s : State) : Result :=
  .next (s.setPc (trunc16 ((s.getV (s.jumpRegister nnn)).toNat + nnn.toNat)))

end Sys2Proof.Machine
end

