-- ==== Sys2Proof/Machine/Draw.lean ====
section
/-! DEFINITION. Clearing the display and drawing sprites (44_display.md). -/

namespace Sys2Proof.Machine

/-- 00E0 (R123). -/
def execCls (s : State) : Result := .next { s with disp := blankDisplay }.advance

/-- Dxyn once the sprite's bytes are read: every 1 bit toggles its pixel, then VF is the collision (R124). -/
def drawSprite (x0 y0 : Byte) (bs : List Byte) (s : State) : State :=
  let r := drawPlaces s.disp false (spritePlaces x0 y0 0 bs)
  { s with disp := r.1 }.setV vf (flagByte r.2)

/-- Dxyn: the coordinates are read before VF is written; OutOfBounds before any pixel changes; n = 0 draws nothing
(R124). -/
def execDrw (x y : RegIdx) (n : Nibble) (s : State) : Result :=
  match s.readBytes s.dataAddr n.toNat with
  | some bs => .next (drawSprite (s.getV x) (s.getV y) bs s).advance
  | none => raiseIn (.drw x y n) .outOfBounds s

end Sys2Proof.Machine
end

