-- ==== Sys2Proof/Machine/IndexMemory.lean ====
section
/-! DEFINITION. The index register and memory transfers (43_index_memory.md). -/

namespace Sys2Proof.Machine

/-- Annn (R114). -/
def execLdI (nnn : Addr12) (s : State) : Result := .next (s.setI (nnn.setWidth 16)).advance

/-- Fx1E: I wraps at 16 bits; VF by P_FX1E_VF (R115). -/
def execAddIVx (x : RegIdx) (s : State) : Result :=
  let t := s.i.toNat + (s.getV x).toNat
  match s.cfg.fx1eVf with
  | .unchanged => .next (s.setI (trunc16 t)).advance
  | .overflow12 => .next ((s.setI (trunc16 t)).setV vf (flagByte (overflow12 t))).advance

/-- Fx29: the address of a digit's glyph; no memory is read (R116). -/
def execLdFVx (x : RegIdx) (s : State) : Result :=
  .next (s.setI (trunc16 (s.cfg.fontBase + 5 * s.fontDigit x))).advance

/-- Fx33: hundreds at I, tens at I + 1, ones at I + 2, or OutOfBounds with nothing written (R117). -/
def execLdBVx (x : RegIdx) (s : State) : Result :=
  match s.writeBytes s.dataAddr (bcdDigits (s.getV x)) with
  | some t => .next t.advance
  | none => raiseIn (.ldBVx x) .outOfBounds s

/-- Fx55: V0..Vx to I..I + x, or OutOfBounds with nothing written (R118). -/
def execLdMemVx (x : RegIdx) (s : State) : Result :=
  match s.writeBytes s.dataAddr (s.regsUpTo x) with
  | some t => .next (t.bumpI x).advance
  | none => raiseIn (.ldMemVx x) .outOfBounds s

/-- Fx65: V0..Vx from I..I + x, or OutOfBounds with nothing written (R119). -/
def execLdVxMem (x : RegIdx) (s : State) : Result :=
  match s.readBytes s.dataAddr (x.toNat + 1) with
  | some bs => .next ((s.setRegsFrom0 bs).bumpI x).advance
  | none => raiseIn (.ldVxMem x) .outOfBounds s

end Sys2Proof.Machine
end

