-- ==== Sys2Proof/Machine/TimersInput.lean ====
section
/-! DEFINITION. Timer access, key tests and the key wait (45_timers_input.md), and the wait step of the cycle
(40_cycle.md R81). -/

namespace Sys2Proof.Machine

/-- Fx07 (R126). -/
def execLdVxDt (x : RegIdx) (s : State) : Result := .next (s.setV x s.dt).advance

/-- Fx15 (R127). -/
def execLdDtVx (x : RegIdx) (s : State) : Result := .next { s with dt := s.getV x }.advance

/-- Fx18 (R128). -/
def execLdStVx (x : RegIdx) (s : State) : Result := .next { s with st := s.getV x }.advance

/-- Ex9E: skip if the key is pressed, or InvalidKey (R129, R130). -/
def execSkp (x : RegIdx) (s : State) : Result :=
  match s.keyOperand x with
  | some k => .next (s.skipIf (s.isPressed k))
  | none => raiseIn (.skp x) .invalidKey s

/-- ExA1: skip if the key is not pressed, or InvalidKey (R129, R131). -/
def execSknp (x : RegIdx) (s : State) : Result :=
  match s.keyOperand x with
  | some k => .next (s.skipIf (!s.isPressed k))
  | none => raiseIn (.sknp x) .invalidKey s

/-- Fx0A: the wait begins; PC keeps this address and the latch is not tested (R132). -/
def execLdVxK (x : RegIdx) (s : State) : Result := .next { s with status := .waitingForKey x }

/-- The wait ends with key `k` (R81). -/
def endWait (r : RegIdx) (k : Key) (s : State) : State :=
  { (s.setV r (k.setWidth 8)).advance with status := .running }

/-- A cycle in WaitingForKey: nothing is fetched; with no key pressed nothing changes (R81). -/
def waitStep (r : RegIdx) (s : State) : State :=
  match s.pressedKeys with
  | [] => s
  | k :: ks => endWait r (s.chooseKey k ks).1 { s with choices := (s.chooseKey k ks).2 }

end Sys2Proof.Machine
end

