-- ==== Sys2Proof/Machine/Cycle.lean ====
section
/-! DEFINITION. The fetch-decode-execute cycle (40_cycle.md R78). -/

namespace Sys2Proof.Machine

/-- A cycle in Running: fetch, decode, execute; the first check that fails is the one reported (R78, R82, R85,
60_exceptions.md R137). -/
def runningCycle (s : State) : Result :=
  match s.fetch with
  | none => .next (raise .outOfBounds none s)
  | some w =>
    match decode w with
    | .error _ => .next (raise .unknownOpcode (some w) s)
    | .ok i => exec i s

/-- One call of `cycle()`, by status (R78, R80, R81). -/
def cycle (s : State) : Result :=
  match s.status with
  | .halted _ _ _ => .next s
  | .waitingForKey r => .next (waitStep r s)
  | .running => runningCycle s

/-- A state in which the next cycle fetches the word `w` at PC: Running, with the word's bytes at PC and PC + 1.
Where PC is past 0x0FFE no fetch can succeed, and memory is left alone. -/
def placeWord (w : Word) (s : State) : State :=
  match { s with status := .running }.writeBytes s.pc.toNat [hiByte w, loByte w] with
  | some t => t
  | none => { s with status := .running }

end Sys2Proof.Machine
end

