-- ==== Sys2Proof/Machine/Assembler.lean ====
section
/-! DEFINITION. The assembler's notation (30_encoding.md R76): a mnemonic and its operands assemble to one machine word
(R77), and every instruction has a line of its own. -/

namespace Sys2Proof.Machine

/-- The mnemonics of R70. -/
inductive Mnemonic where
  | sys | cls | ret | jp | call | se | sne | ld | add | or | and | xor | sub | shr | subn | shl | rnd | drw | skp | sknp
  deriving DecidableEq, Repr

/-- An operand as written: a register V0.., a number, or one of the special operands I, DT, ST, K, F, B, [I] (R76). -/
inductive Operand where
  | v (x : Nat)
  | num (n : Nat)
  | idx | dt | st | key | font | bcd | memI
  deriving DecidableEq, Repr

/-- The field of `width` bits that holds `n`; none when `n` does not fit: the assembler refuses it (R76). -/
def fitField (width n : Nat) : Option (BitVec width) := if n < 2 ^ width then some (BitVec.ofNat width n) else none

/-- A line `OP nnn`. -/
def lineNNN (mk : Addr12 → Instr) (n : Nat) : Option Instr := (fitField 12 n).map mk

/-- A line `OP Vx`. -/
def lineX (mk : RegIdx → Instr) (x : Nat) : Option Instr := (fitField 4 x).map mk

/-- A line `OP Vx, kk`. -/
def lineXKK (mk : RegIdx → Byte → Instr) (x kk : Nat) : Option Instr :=
  match fitField 4 x, fitField 8 kk with
  | some x, some kk => some (mk x kk)
  | _, _ => none

/-- A line `OP Vx, Vy`. -/
def lineXY (mk : RegIdx → RegIdx → Instr) (x y : Nat) : Option Instr :=
  match fitField 4 x, fitField 4 y with
  | some x, some y => some (mk x y)
  | _, _ => none

/-- A line `OP Vx, Vy, n`. -/
def lineXYN (mk : RegIdx → RegIdx → Nibble → Instr) (x y n : Nat) : Option Instr :=
  match fitField 4 x, fitField 4 y, fitField 4 n with
  | some x, some y, some n => some (mk x y n)
  | _, _, _ => none

/-- The instruction a line stands for; none where there is no such line or an operand does not fit. The low nibble of
SE Vx, Vy and SNE Vx, Vy is 0, and SHR Vx and SHL Vx written without Vy have y = 0 (R76). -/
def lineInstr : Mnemonic → List Operand → Option Instr
  | .sys, [.num n] => lineNNN .sys n
  | .cls, [] => some .cls
  | .ret, [] => some .ret
  | .jp, [.num n] => lineNNN .jp n
  | .jp, [.v 0, .num n] => lineNNN .jpV0 n
  | .call, [.num n] => lineNNN .call n
  | .se, [.v x, .num kk] => lineXKK .seImm x kk
  | .sne, [.v x, .num kk] => lineXKK .sneImm x kk
  | .se, [.v x, .v y] => lineXY (fun x y => .seReg x y 0) x y
  | .sne, [.v x, .v y] => lineXY (fun x y => .sneReg x y 0) x y
  | .ld, [.v x, .num kk] => lineXKK .ldImm x kk
  | .add, [.v x, .num kk] => lineXKK .addImm x kk
  | .ld, [.v x, .v y] => lineXY .ldReg x y
  | .or, [.v x, .v y] => lineXY .orReg x y
  | .and, [.v x, .v y] => lineXY .andReg x y
  | .xor, [.v x, .v y] => lineXY .xorReg x y
  | .add, [.v x, .v y] => lineXY .addReg x y
  | .sub, [.v x, .v y] => lineXY .sub x y
  | .shr, [.v x, .v y] => lineXY .shr x y
  | .shr, [.v x] => lineXY .shr x 0
  | .subn, [.v x, .v y] => lineXY .subn x y
  | .shl, [.v x, .v y] => lineXY .shl x y
  | .shl, [.v x] => lineXY .shl x 0
  | .ld, [.idx, .num n] => lineNNN .ldI n
  | .rnd, [.v x, .num kk] => lineXKK .rnd x kk
  | .drw, [.v x, .v y, .num n] => lineXYN .drw x y n
  | .skp, [.v x] => lineX .skp x
  | .sknp, [.v x] => lineX .sknp x
  | .ld, [.v x, .dt] => lineX .ldVxDt x
  | .ld, [.v x, .key] => lineX .ldVxK x
  | .ld, [.dt, .v x] => lineX .ldDtVx x
  | .ld, [.st, .v x] => lineX .ldStVx x
  | .add, [.idx, .v x] => lineX .addIVx x
  | .ld, [.font, .v x] => lineX .ldFVx x
  | .ld, [.bcd, .v x] => lineX .ldBVx x
  | .ld, [.memI, .v x] => lineX .ldMemVx x
  | .ld, [.v x, .memI] => lineX .ldVxMem x
  | _, _ => none

/-- Assembly of a line to its one machine word (R76, R77). A SYS line whose word is that of CLS or RET is refused:
log entry 14. -/
def assemble (m : Mnemonic) (ops : List Operand) : Option Word :=
  match lineInstr m ops with
  | some i => if i.wellFormed then some (encode i) else none
  | none => none

/-- The line of an instruction, in the notation of R70 and R76. -/
def instrLine : Instr → Mnemonic × List Operand
  | .sys nnn => (.sys, [.num nnn.toNat])
  | .cls => (.cls, [])
  | .ret => (.ret, [])
  | .jp nnn => (.jp, [.num nnn.toNat])
  | .call nnn => (.call, [.num nnn.toNat])
  | .seImm x kk => (.se, [.v x.toNat, .num kk.toNat])
  | .sneImm x kk => (.sne, [.v x.toNat, .num kk.toNat])
  | .seReg x y _ => (.se, [.v x.toNat, .v y.toNat])
  | .ldImm x kk => (.ld, [.v x.toNat, .num kk.toNat])
  | .addImm x kk => (.add, [.v x.toNat, .num kk.toNat])
  | .ldReg x y => (.ld, [.v x.toNat, .v y.toNat])
  | .orReg x y => (.or, [.v x.toNat, .v y.toNat])
  | .andReg x y => (.and, [.v x.toNat, .v y.toNat])
  | .xorReg x y => (.xor, [.v x.toNat, .v y.toNat])
  | .addReg x y => (.add, [.v x.toNat, .v y.toNat])
  | .sub x y => (.sub, [.v x.toNat, .v y.toNat])
  | .shr x y => (.shr, [.v x.toNat, .v y.toNat])
  | .subn x y => (.subn, [.v x.toNat, .v y.toNat])
  | .shl x y => (.shl, [.v x.toNat, .v y.toNat])
  | .sneReg x y _ => (.sne, [.v x.toNat, .v y.toNat])
  | .ldI nnn => (.ld, [.idx, .num nnn.toNat])
  | .jpV0 nnn => (.jp, [.v 0, .num nnn.toNat])
  | .rnd x kk => (.rnd, [.v x.toNat, .num kk.toNat])
  | .drw x y n => (.drw, [.v x.toNat, .v y.toNat, .num n.toNat])
  | .skp x => (.skp, [.v x.toNat])
  | .sknp x => (.sknp, [.v x.toNat])
  | .ldVxDt x => (.ld, [.v x.toNat, .dt])
  | .ldVxK x => (.ld, [.v x.toNat, .key])
  | .ldDtVx x => (.ld, [.dt, .v x.toNat])
  | .ldStVx x => (.ld, [.st, .v x.toNat])
  | .addIVx x => (.add, [.idx, .v x.toNat])
  | .ldFVx x => (.ld, [.font, .v x.toNat])
  | .ldBVx x => (.ld, [.bcd, .v x.toNat])
  | .ldMemVx x => (.ld, [.memI, .v x.toNat])
  | .ldVxMem x => (.ld, [.v x.toNat, .memI])

/-- A mnemonic as text (R76). -/
def mnemonicText : Mnemonic → String
  | .sys => "SYS" | .cls => "CLS" | .ret => "RET" | .jp => "JP" | .call => "CALL" | .se => "SE" | .sne => "SNE"
  | .ld => "LD" | .add => "ADD" | .or => "OR" | .and => "AND" | .xor => "XOR" | .sub => "SUB" | .shr => "SHR"
  | .subn => "SUBN" | .shl => "SHL" | .rnd => "RND" | .drw => "DRW" | .skp => "SKP" | .sknp => "SKNP"

/-- A number in hexadecimal digits, capitals as in V0..VF. -/
def hexText (n : Nat) : String := String.ofList ((Nat.toDigits 16 n).map Char.toUpper)

/-- An operand as text: registers V0..VF, numbers with the 0x prefix of R16, the special operands by name (R76). -/
def operandText : Operand → String
  | .v x => "V" ++ hexText x
  | .num n => "0x" ++ hexText n
  | .idx => "I" | .dt => "DT" | .st => "ST" | .key => "K" | .font => "F" | .bcd => "B" | .memI => "[I]"

/-- A line as text: `LD V0, 0xA`. -/
def lineText (m : Mnemonic) (ops : List Operand) : String :=
  match ops with
  | [] => mnemonicText m
  | _ => mnemonicText m ++ " " ++ String.intercalate ", " (ops.map operandText)

end Sys2Proof.Machine
end

