-- ==== Sys2Proof/Machine/Interface.lean ====
section
/-! DEFINITION. The host's calls other than `cycle` and `load`: the tick, the key write and the reads
(60_exceptions.md sections 7 and 8). Each is atomic and falls between two cycles (20_memory.md R64). -/

namespace Sys2Proof.Machine

/-- A timer's decrement: by one if nonzero, else none (R140). -/
def tickTimer (t : Byte) : Byte := if t = 0 then 0 else t - 1

/-- `tick()`: both timers, in every status; nothing else changes (R140). -/
def State.tick (s : State) : State := { s with dt := tickTimer s.dt, st := tickTimer s.st }

/-- `set_key(k, pressed)` (R144). -/
def State.setKey (k : Key) (pressed : Bool) (s : State) : State :=
  { s with keys := s.keys.set k.toNat pressed k.isLt }

/-- `read_pixel(x, y)` (R145). -/
def State.readPixel (s : State) (x : Fin 64) (y : Fin 32) : Bool := pixel s.disp (x, y)

/-- The full-buffer snapshot (R145, R149). -/
def State.snapshot (s : State) : Display := s.disp

/-- The audio output: `tone = (ST ≠ 0)` (10_state.md R41, R146). -/
def State.tone (s : State) : Bool := s.st != 0

/-- The halt diagnostics: the reason, PC and faulting opcode, when Halted (R148). -/
def State.diagnostics (s : State) : Option (HaltReason × Word × Option Word) :=
  match s.status with
  | .halted e p o => some (e, p, o)
  | .running => none
  | .waitingForKey _ => none

/-- What a call of `cycle()` or `load` returns to its caller (40_cycle.md R79, R149). -/
inductive CallResult where
  | ok
  | halted (reason : HaltReason) (pc : Word) (opcode : Option Word)
  deriving DecidableEq, Repr

/-- The result by the status after the call: Ok in Running and WaitingForKey (R79). -/
def State.result (s : State) : CallResult :=
  match s.status with
  | .running => .ok
  | .waitingForKey _ => .ok
  | .halted e p o => .halted e p o

end Sys2Proof.Machine
end

