-- ==== Sys2Proof/Machine/Events.lean ====
section
/-! DEFINITION. Every interleaving of the host's calls (60_exceptions.md R143): a list of calls, each atomic, run one
after another. -/

namespace Sys2Proof.Machine

/-- A call that can change the state (R149). -/
inductive Event where
  | cycle
  | tick
  | setKey (k : Key) (pressed : Bool)
  | load (image initMem : List Byte)
  deriving DecidableEq, Repr

/-- One call. -/
def runEvent (e : Event) (s : State) : Result :=
  match e with
  | .cycle => step s
  | .tick => .next s.tick
  | .setKey k pressed => .next (s.setKey k pressed)
  | .load image initMem => .next (s.load image initMem)

/-- A schedule of calls, in order (R143). -/
def runEvents : List Event → State → Result
  | [], s => .next s
  | e :: es, s =>
    match runEvent e s with
    | .next t => runEvents es t
    | .fault r => .fault r
    | .refused r => .refused r

end Sys2Proof.Machine
end

