-- ==== Sys2Proof/Safety.lean ====
section
/-! DEFINITION. The terms in which claims are made: what a state of a run satisfies, and what a step leaves
unchanged. -/

namespace Sys2Proof.Machine

/-! ### The invariant of every run -/

/-- The status agrees with the rest: a wait stands at an address that was fetched (R132, R82); a halt records PC, and
its kind is one that something raises, with the opcode where 60_exceptions.md R133 records one. -/
def statusOk (s : State) : Bool :=
  match s.status with
  | .running => true
  | .waitingForKey _ => s.pc.toNat ≤ 0x0FFE
  | .halted .invalidRegister _ _ => false
  | .halted .imageTooLarge p o => p == trunc16 loadOffset && o.isNone
  | .halted .outOfBounds p _ => p == s.pc
  | .halted .invalidKey p o => p == s.pc && o.isSome
  | .halted .stackOverflow p o => p == s.pc && o.isSome
  | .halted .stackUnderflow p o => p == s.pc && o.isSome
  | .halted .unknownOpcode p o => p == s.pc && o.isSome

/-- What holds in every state of a run from construction: the parameters are legal (R14), memory is in canonical form
inside the 4096 bytes (R51), at most 16 return addresses, each at most 0x1000 (R37, R92), PC at most 0x10FE (R36), and
the status agrees with the rest. -/
abbrev State.Inv (s : State) : Prop :=
  s.cfg.ok ∧ Memory.wf s.cfg s.mem ∧ s.stack.length ≤ stackDepth ∧ (∀ a ∈ s.stack, a.toNat ≤ 0x1000) ∧
    s.pc.toNat ≤ 0x10FE ∧ statusOk s

/-- The status is Halted. -/
def State.isHalted (s : State) : Bool :=
  match s.status with
  | .halted _ _ _ => true
  | .running => false
  | .waitingForKey _ => false

/-! ### Frames -/

/-- The parts of the state other than the general registers. -/
inductive Part where
  | i | pc | stack | dt | st | mem | disp | keys | status | cfg | draws | choices
  deriving DecidableEq, Repr

/-- The part is the same in both states; memory byte by byte, the display pixel by pixel. -/
def Part.Same (s t : State) : Part → Prop
  | .i => t.i = s.i
  | .pc => t.pc = s.pc
  | .stack => t.stack = s.stack
  | .dt => t.dt = s.dt
  | .st => t.st = s.st
  | .mem => ∀ a, t.byteAt a = s.byteAt a
  | .disp => ∀ c, pixel t.disp c = pixel s.disp c
  | .keys => ∀ k, t.isPressed k = s.isPressed k
  | .status => t.status = s.status
  | .cfg => t.cfg = s.cfg
  | .draws => t.draws = s.draws
  | .choices => t.choices = s.choices

/-- From `s` to `t` nothing changes but the parts listed and the registers listed. -/
def Frame (s t : State) (parts : List Part) (regs : List RegIdx) : Prop :=
  (∀ r, r ∉ regs → t.getV r = s.getV r) ∧ ∀ p, p ∉ parts → p.Same s t

/-- Every byte outside the `n` bytes from `a` reads in `t` as in `s`. -/
def SameBytesOutside (s t : State) (a n : Nat) : Prop := ∀ b, (b < a ∨ a + n ≤ b) → t.byteAt b = s.byteAt b

/-- `t` is `s` halted with reason `e`, PC of `s`, and opcode `o`, and nothing else changed (60_exceptions.md R134). -/
def HaltedFrom (s t : State) (e : HaltReason) (o : Option Word) : Prop :=
  t.status = .halted e s.pc o ∧ Frame s t [.status] []

/-- PC moved on by `n` (R34). -/
def PcPlus (s t : State) (n : Nat) : Prop := t.pc = trunc16 (s.pc.toNat + n)

/-! ### Whole-machine vocabulary -/

/-- The illegal words, as 30_encoding.md R73 lists them. -/
def IllegalWord (w : Word) : Prop :=
  (fieldOp w = 0x8 ∧ fieldN w ∈ [0x8, 0x9, 0xA, 0xB, 0xC, 0xD, (0xF : Nibble)]) ∨
    (fieldOp w = 0xE ∧ fieldKK w ∉ [0x9E, (0xA1 : Byte)]) ∨
      (fieldOp w = 0xF ∧ fieldKK w ∉ [0x07, 0x0A, 0x15, 0x18, 0x1E, 0x29, 0x33, 0x55, (0x65 : Byte)])

/-- V0..Vx. -/
def regsTo (x : RegIdx) : List RegIdx := (List.range (x.toNat + 1)).map (BitVec.ofNat 4)

/-- The registers an instruction writes as nominal destination in its own cycle (10_state.md R27). Fx0A writes its
register only when the wait ends (R132). -/
def nominalDests : Instr → List RegIdx
  | .ldImm x _ | .addImm x _ | .ldReg x _ | .orReg x _ | .andReg x _ | .xorReg x _ | .addReg x _ | .sub x _ | .shr x _
  | .subn x _ | .shl x _ | .rnd x _ | .ldVxDt x => [x]
  | .ldVxMem x => regsTo x
  | .sys _ | .cls | .ret | .jp _ | .call _ | .seImm _ _ | .sneImm _ _ | .seReg _ _ _ | .sneReg _ _ _ | .ldI _ | .jpV0 _
  | .drw _ _ _ | .skp _ | .sknp _ | .ldVxK _ | .ldDtVx _ | .ldStVx _ | .addIVx _ | .ldFVx _ | .ldBVx _ | .ldMemVx _ => []

/-- The instructions that write VF as a flag, under the parameters (10_state.md R29). -/
def writesFlag (p : Params) : Instr → Bool
  | .addReg _ _ | .sub _ _ | .subn _ _ | .shr _ _ | .shl _ _ | .drw _ _ _ => true
  | .addIVx _ => p.fx1eVf == .overflow12
  | .orReg _ _ | .andReg _ _ | .xorReg _ _ => p.logicVf == .reset
  | .sys _ | .cls | .ret | .jp _ | .call _ | .seImm _ _ | .sneImm _ _ | .seReg _ _ _ | .ldImm _ _ | .addImm _ _
  | .ldReg _ _ | .sneReg _ _ _ | .ldI _ | .jpV0 _ | .rnd _ _ | .skp _ | .sknp _ | .ldVxDt _ | .ldVxK _ | .ldDtVx _
  | .ldStVx _ | .ldFVx _ | .ldBVx _ | .ldMemVx _ | .ldVxMem _ => false

/-- A 1 bit of the `n`-row sprite at I, drawn at (x0, y0), lands on the place: bit 7 leftmost, both axes wrapped
(44_display.md R120, R121). -/
def SpriteCovers (s : State) (x0 y0 : Byte) (n : Nat) (c : Place) : Prop :=
  ∃ r j, r < n ∧ j < 8 ∧ (s.byteAt (s.dataAddr + r)).getLsbD (7 - j) = true ∧
    c.1.val = (x0.toNat + j) % 64 ∧ c.2.val = (y0.toNat + r) % 32

/-- The word decodes to an operation. -/
def decodes (w : Word) : Bool :=
  match decode w with
  | .ok _ => true
  | .error _ => false

/-- How many of the 4096 words of a family, 16 values of x by 256 of kk, decode to an operation (30_encoding.md R72). -/
def decodedInFamily (op : Nibble) : Nat :=
  ((List.range 16).map fun x =>
    (List.range 256).countP fun kk => decodes (wordXKK op (BitVec.ofNat 4 x) (BitVec.ofNat 8 kk))).sum

/-- The sixteen families. -/
def allFamilies : List Nibble := (List.range 16).map (BitVec.ofNat 4)

end Sys2Proof.Machine
end

