-- ==== Sys2Proof/Certificates/Slice0/Obligations.lean ====
section
/-! DEFINITION. The statements for the provers, from the numbered rules of spec/. Every statement over a state holds
for every value of the parameters of 00_scope.md R14, since the state carries them (R15). `Frame s t parts regs` says
that nothing but the listed parts and registers changed; memory is compared byte by byte. -/

open Sys2Proof Sys2Proof.Machine

/-! ### Encoding (30_encoding.md) -/

/-- R70, R71: decoding the word, or the bytes, of a well-formed instruction gives it back.
The opcode patterns are the spec's own, [from general knowledge, not in source], D1. -/
def Obligations.DecodeOfEncodeIsTheInstruction : Prop :=
  ∀ (i : Instr) (rest : List Byte), i.wellFormed = true →
    decode (encode i) = .ok i ∧ decodeBytes (encodeBytes i ++ rest) = .ok (i, rest)

/-- R71, R72: a decoded word is the word of the instruction decoded, which is well-formed: no bit of it is lost, and
no two instructions share a word.
The opcode patterns are the spec's own, [from general knowledge, not in source], D1. -/
def Obligations.DecodedWordIsTheInstructionsWord : Prop :=
  ∀ (w : Word) (i : Instr), decode w = .ok i → i.wellFormed = true ∧ encode i = w

/-- R85: executing a word that decodes to nothing raises UnknownOpcode with PC and the word, and changes nothing else;
those words are the ones 30_encoding.md R73 lists, 0xFFFF among them. -/
def Obligations.IllegalWordsHaltUnknownOpcode : Prop :=
  (∀ w : Word, (∃ e, decode w = .error e) ↔ IllegalWord w) ∧ IllegalWord 0xFFFF ∧
  ∀ (s : State) (w : Word), s.status = .running → s.fetch = some w → IllegalWord w →
    ∃ t, step s = .next t ∧ HaltedFrom s t .unknownOpcode (some w)

/-- R72: every word decodes or is Unknown; how many decode, family by family and in all, the rest of the 65536 being
Unknown; and no two operations share a word.
R72 is [derived: from rule R71]. -/
def Obligations.DecodableWordsAreCounted : Prop :=
  decodedInFamily 0x0 = 4096 ∧
  (∀ op ∈ [(0x1 : Nibble), 0x2, 0x3, 0x4, 0x5, 0x6, 0x7, 0x9, 0xA, 0xB, 0xC, 0xD], decodedInFamily op = 4096) ∧
  decodedInFamily 0x8 = 9 * 256 ∧ decodedInFamily 0xE = 2 * 16 ∧ decodedInFamily 0xF = 9 * 16 ∧
  (allFamilies.map decodedInFamily).sum = 55728 ∧
  4096 - decodedInFamily 0x8 = 1792 ∧ 4096 - decodedInFamily 0xE = 4064 ∧ 4096 - decodedInFamily 0xF = 3952 ∧
  16 * 4096 - (allFamilies.map decodedInFamily).sum = 9808 ∧
  (∀ w : Word, ∃ op x kk, w = wordXKK op x kk) ∧
  (∀ i j : Instr, i.wellFormed = true → j.wellFormed = true → encode i = encode j → i = j)

/-- R70, R71, R73: words written out from the spec's examples decode to the instructions they stand for, and the
SUPER-CHIP and XO-CHIP words that R73 names are illegal or decode as it says.
The opcode patterns are the spec's own, [from general knowledge, not in source]. -/
def Obligations.ExampleWordsDecode : Prop :=
  decode 0x600A = .ok (.ldImm 0x0 0x0A) ∧ decode 0x8014 = .ok (.addReg 0x0 0x1) ∧
  decode 0x2300 = .ok (.call 0x300) ∧ decode 0xD015 = .ok (.drw 0x0 0x1 0x5) ∧
  decode 0xE19E = .ok (.skp 0x1) ∧ decode 0xF30A = .ok (.ldVxK 0x3) ∧ decode 0xF265 = .ok (.ldVxMem 0x2) ∧
  decode 0x0000 = .ok (.sys 0x000) ∧ decode 0x00E0 = .ok .cls ∧ decode 0x00EE = .ok .ret ∧
  decode 0x5121 = .ok (.seReg 0x1 0x2 0x1) ∧
  IllegalWord 0xF000 ∧ (∀ x : RegIdx, ∀ kk ∈ [(0x30 : Byte), 0x75, 0x85, 0x01], IllegalWord (wordXKK 0xF x kk)) ∧
  (∀ n : Nibble, decode (wordXYN 0x0 0x0 0xC n) = .ok (.sys (0x0C#8 ++ n))) ∧
  (∀ n : Nibble, 0xB ≤ n → decode (wordXYN 0x0 0x0 0xF n) = .ok (.sys (0x0F#8 ++ n))) ∧
  (∀ x y n : Nibble, decode (wordXYN 0x5 x y n) = .ok (.seReg x y n) ∧
    decode (wordXYN 0x9 x y n) = .ok (.sneReg x y n))

/-- R76, R77: the line of an instruction assembles to its word (with low nibble 0 for SE Vx, Vy and SNE Vx, Vy), the
one-operand SHR and SHL have y = 0, and an operand that does not fit its field is refused: a number, or a register past
VF, in every place of every line that takes one, whatever the other operands. The refusal of SYS lines whose words are
CLS and RET is the model's (log entry 14).
The notation is the spec's own, D25. -/
def Obligations.AssemblerPlacesFields : Prop :=
  (∀ i : Instr, i.wellFormed = true → (∀ x y g, i = .seReg x y g → g = 0) → (∀ x y g, i = .sneReg x y g → g = 0) →
    assemble (instrLine i).1 (instrLine i).2 = some (encode i)) ∧
  (∀ x : RegIdx, assemble .shr [.v x.toNat] = some (wordXYN 0x8 x 0 0x6) ∧
    assemble .shl [.v x.toNat] = some (wordXYN 0x8 x 0 0xE)) ∧
  (∀ n : Nat, 0x1000 ≤ n → assemble .jp [.num n] = none ∧ assemble .call [.num n] = none ∧
    assemble .sys [.num n] = none ∧ assemble .ld [.idx, .num n] = none ∧ assemble .jp [.v 0, .num n] = none) ∧
  (∀ k n : Nat, 0x100 ≤ n → ∀ m ∈ [Mnemonic.ld, .add, .se, .sne, .rnd], assemble m [.v k, .num n] = none) ∧
  (∀ k l n : Nat, 0x10 ≤ n → assemble .drw [.v k, .v l, .num n] = none) ∧
  (∀ r k n : Nat, 0x10 ≤ r →
    (∀ m ∈ [Mnemonic.skp, .sknp, .shr, .shl], assemble m [.v r] = none) ∧
    (∀ o ∈ [Operand.dt, .key, .memI], assemble .ld [.v r, o] = none) ∧
    (∀ o ∈ [Operand.dt, .st, .font, .bcd, .memI], assemble .ld [o, .v r] = none) ∧
    assemble .add [.idx, .v r] = none ∧ assemble .jp [.v r, .num n] = none ∧
    (∀ m ∈ [Mnemonic.ld, .add, .se, .sne, .rnd], assemble m [.v r, .num k] = none) ∧
    (∀ m ∈ [Mnemonic.se, .sne, .ld, .or, .and, .xor, .add, .sub, .shr, .subn, .shl],
      assemble m [.v r, .v k] = none ∧ assemble m [.v k, .v r] = none) ∧
    assemble .drw [.v r, .v k, .num n] = none ∧ assemble .drw [.v k, .v r, .num n] = none)

/-! ### The cycle (40_cycle.md) -/

/-- R58, R78, R83: in Running, the bytes at PC and PC + 1, composed big-endian and decoded, are the instruction that
the step executes; the step adds nothing around it. -/
def Obligations.StepRunsTheDecodedInstruction : Prop :=
  ∀ (s : State) (hi lo : Byte) (w : Word) (i : Instr), s.status = .running → s.pc.toNat + 1 < 4096 →
    s.byteAt s.pc.toNat = hi → s.byteAt (s.pc.toNat + 1) = lo → w.toNat = hi.toNat * 256 + lo.toNat →
    decode w = .ok i → step s = exec i s

/-- R82: the fetch reads the bytes at PC and PC + 1; when either is past the end the cycle raises OutOfBounds with no
opcode and nothing else changes, so every PC ≥ 0x0FFF faults at fetch. -/
def Obligations.FetchReadsTwoBytesOrHalts : Prop :=
  ∀ s : State,
    (s.pc.toNat < 0x0FFF → ∃ w, s.fetch = some w ∧ hiByte w = s.byteAt s.pc.toNat ∧
      loByte w = s.byteAt (s.pc.toNat + 1)) ∧
    (0x0FFF ≤ s.pc.toNat → s.status = .running →
      s.fetch = none ∧ ∃ t, step s = .next t ∧ HaltedFrom s t .outOfBounds none)

/-- R79, R80: a cycle in Halted changes no state and returns the same Halted result; in Running and WaitingForKey the
result of a state is Ok.
The no-op is the spec's own, D21. -/
def Obligations.HaltedCycleChangesNothing : Prop :=
  (∀ (s : State) (e : HaltReason) (p : Word) (o : Option Word), s.status = .halted e p o →
    step s = .next s ∧ s.result = .halted e p o ∧ s.diagnostics = some (e, p, o)) ∧
  (∀ s : State, s.isHalted = false → s.result = .ok ∧ s.diagnostics = none)

/-- R81: a cycle of the key wait. With no key pressed nothing changes. With a key pressed, some pressed key (the lowest
under P_KEY_SELECT = Lowest) goes to V[r], PC advances by 2 and the status is Running; nothing else of the machine
changes (`choices` is the model's own counter).
Which key is the spec's own, D12; log entry 5. -/
def Obligations.KeyWaitCycle : Prop :=
  ∀ (s : State) (r : RegIdx), s.status = .waitingForKey r →
    ((∀ k, s.isPressed k = false) → step s = .next s) ∧
    (∀ j, s.isPressed j = true → ∃ t k, step s = .next t ∧ s.isPressed k = true ∧
      (s.cfg.keySelect = .lowest → ∀ l, s.isPressed l = true → k.toNat ≤ l.toNat) ∧
      (t.getV r).toNat = k.toNat ∧ PcPlus s t 2 ∧ t.status = .running ∧ Frame s t [.pc, .status, .choices] [r])

/-- R79, R134: every step answers a next state; no cycle ends in a fault or a refusal of the model.
That an error is a next state and never a Fault or a Refusal is the model's choice, log entry 6. -/
def Obligations.EveryStepAnswersNext : Prop :=
  ∀ s : State, ∃ t, step s = .next t

/-- R134: a cycle that raises sets the status to Halted with PC, and the opcode is the word fetched, or none when the
fetch itself raised; nothing else changes.
Precision for every kind is the spec's own, D16. -/
def Obligations.HaltIsPrecise : Prop :=
  ∀ (s t : State) (e : HaltReason) (p : Word) (o : Option Word), s.isHalted = false → step s = .next t →
    t.status = .halted e p o → p = s.pc ∧ o = s.fetch ∧ HaltedFrom s t e o

/-- R133: which instruction raises which error kind, and when.
The order of checks is the spec's own, D28, and what is recorded, D27. -/
def Obligations.ErrorKindsByInstruction : Prop :=
  ∀ (i : Instr) (s t : State) (e : HaltReason) (p : Word) (o : Option Word), s.status = .running →
    exec i s = .next t → t.status = .halted e p o →
    p = s.pc ∧ o = some (encode i) ∧
    ((e = .outOfBounds ∧ ((∃ x y n, i = .drw x y n ∧ 0 < n.toNat ∧ 4096 ≤ s.i.toNat + n.toNat - 1) ∨
        (∃ x, i = .ldBVx x ∧ 4096 ≤ s.i.toNat + 2) ∨ (∃ x, i = .ldMemVx x ∧ 4096 ≤ s.i.toNat + x.toNat) ∨
        (∃ x, i = .ldVxMem x ∧ 4096 ≤ s.i.toNat + x.toNat))) ∨
      (e = .unknownOpcode ∧ s.cfg.sys = .halt ∧ ∃ nnn, i = .sys nnn) ∨
      (e = .stackOverflow ∧ 16 ≤ s.stack.length ∧ ∃ nnn, i = .call nnn) ∨
      (e = .stackUnderflow ∧ s.stack = [] ∧ i = .ret) ∨
      (e = .invalidKey ∧ s.cfg.keyIndex = .halt ∧ ∃ x, (i = .skp x ∨ i = .sknp x) ∧ 15 < (s.getV x).toNat))

/-- R136: Halted is terminal but for a program load. Of the host's calls only `load` leaves it.
The no-op cycle in Halted is the spec's own, D21. -/
def Obligations.OnlyLoadLeavesHalted : Prop :=
  ∀ (e : Event) (s t : State), s.isHalted = true → runEvent e s = .next t → t.isHalted = false →
    ∃ image init, e = .load image init

/-! ### Invariants -/

/-- R50, R153: a constructed instance meets the invariant, and so does reset.
The state between construction and a load is the spec's own, D39; the canonical form is the model's. -/
def Obligations.ConstructionMeetsInvariant : Prop :=
  (∀ p : Params, p.ok → (State.construct p).Inv) ∧ State.reset.Inv

/-- R36, R37, R51, R133: every step keeps the invariant: memory canonical and inside the 4096 bytes, at most 16 return
addresses each at most 0x1000, PC at most 0x10FE (so PC never wraps), a wait at a fetched address, a halt recording
PC with a kind other than InvalidRegister.
R36 is [derived: from rule R34]; the canonical form is the model's. -/
def Obligations.StepKeepsInvariant : Prop :=
  ∀ s t : State, s.Inv → step s = .next t → t.Inv

/-- R143: under every interleaving of the host's calls a run goes on and keeps the invariant.
R36 is [derived: from rule R34]; the canonical form is the model's, log entry 2, and so is that every call answers a next
state, log entry 6. -/
def Obligations.EveryScheduleKeepsInvariant : Prop :=
  ∀ (es : List Event) (s : State), s.Inv → ∃ t, runEvents es s = .next t ∧ t.Inv

/-! ### Memory (20_memory.md) -/

/-- R52, R53: for every valid address a write followed by a read gives the byte back, every other address reads as
before and nothing else changes; past 4095 both fail. -/
def Obligations.ReadAfterWriteGivesTheByte : Prop :=
  ∀ (s : State) (a : Nat) (b : Byte),
    (a < 4096 → ∃ t, s.writeByte a b = some t ∧ t.readByte a = some b ∧
      (∀ c, c ≠ a → t.readByte c = s.readByte c) ∧ Frame s t [.mem] []) ∧
    (4096 ≤ a → s.writeByte a b = none ∧ s.readByte a = none)

/-- R51, R61: stores and loads keep memory's canonical form.
The canonical form is the model's, log entry 2. -/
def Obligations.MemoryOperationsKeepCanonicalForm : Prop :=
  (∀ (s t : State) (a : Nat) (bs : List Byte), Memory.wf s.cfg s.mem → s.writeBytes a bs = some t →
    Memory.wf t.cfg t.mem) ∧
  (∀ (s : State) (image init : List Byte), Memory.wf s.cfg s.mem →
    Memory.wf (s.load image init).cfg (s.load image init).mem)

/-- R66: a store is seen by the very next fetch. An Fx55 whose I is the address of the next instruction replaces that
instruction by V0, V1.
R66 is [derived: from rule R59 and rule R64]. -/
def Obligations.StoreIsSeenByNextFetch : Prop :=
  ∀ (s : State) (x : RegIdx), 1 ≤ x.toNat → s.i.toNat = s.pc.toNat + 2 → s.i.toNat + x.toNat < 4096 →
    ∃ t w, exec (.ldMemVx x) s = .next t ∧ t.fetch = some w ∧ hiByte w = s.getV 0 ∧ loByte w = s.getV 1

/-! ### Reset, load and the host's calls (70_reset_and_hazards.md, 60_exceptions.md) -/

/-- R153: construction installs FONT_DATA at FONT_BASE..FONT_BASE+79, every other byte holds INIT_MEM, and the rest is
as R50 says of a load of an empty image.
The state between construction and a load is the spec's own, D39. -/
def Obligations.ConstructionState : Prop :=
  ∀ p : Params, let s := State.construct p
    (∀ x, s.getV x = 0) ∧ s.i = 0 ∧ s.pc = 0x200 ∧ s.stack = [] ∧ s.dt = 0 ∧ s.st = 0 ∧
    (∀ c, pixel s.disp c = false) ∧ (∀ k, s.isPressed k = false) ∧ s.status = .running ∧
    (∀ k : Fin 80, s.byteAt (p.fontBase + k.val) = p.fontData[k]) ∧
    (∀ a, a < p.fontBase ∨ p.fontBase + 80 ≤ a → s.byteAt a = p.initMem.getD a 0)

/-- R57, R154: a load. Where it is not refused, every register, the display and the keys are reset, the image stands
at 0x200, the font reads as before and every other byte is INIT_MEM; where the image is over 3584 bytes or would overlap
the font (which no legal FONT_BASE lets happen) only the status changes. (INIT_MEM as an argument of the call is log
entry 10.)
INIT_MEM, the status on a refusal and the overlap are the spec's own, D19, D22, D24. -/
def Obligations.LoadResetsTheMachine : Prop :=
  ∀ (s : State) (image init : List Byte), let t := s.load image init
    (image.length ≤ 3584 →
      (image.length = 0 ∨ 0x200 + image.length ≤ s.cfg.fontBase ∨ s.cfg.fontBase + 80 ≤ 0x200) →
      (∀ x, t.getV x = 0) ∧ t.i = 0 ∧ t.pc = 0x200 ∧ t.stack = [] ∧ t.dt = 0 ∧ t.st = 0 ∧
      (∀ c, pixel t.disp c = false) ∧ (∀ k, t.isPressed k = false) ∧ t.status = .running ∧
      (∀ k, k < image.length → t.byteAt (0x200 + k) = image.getD k 0) ∧
      (∀ k, k < 80 → t.byteAt (s.cfg.fontBase + k) = s.byteAt (s.cfg.fontBase + k)) ∧
      (∀ a, (a < 0x200 ∨ 0x200 + image.length ≤ a) → (a < s.cfg.fontBase ∨ s.cfg.fontBase + 80 ≤ a) →
        t.byteAt a = init.getD a 0)) ∧
    ((3584 < image.length ∨ (0 < image.length ∧ s.cfg.fontBase < 0x200 + image.length ∧
        0x200 < s.cfg.fontBase + 80)) →
      t.status = .halted .imageTooLarge 0x200 none ∧ Frame s t [.status] [])

/-- R155: the first cycle after a load fetches the first two bytes of the image; a byte the image lacks is INIT_MEM. -/
def Obligations.FirstFetchAfterLoadIsTheImage : Prop :=
  ∀ (s : State) (image init : List Byte), s.cfg.ok → image.length ≤ 3584 →
    ∃ w, (s.load image init).fetch = some w ∧ hiByte w = image.getD 0 (init.getD 0x200 0) ∧
      loByte w = image.getD 1 (init.getD 0x201 0)

/-- R140: a tick decrements each nonzero timer by one and changes nothing else, in every status; n ticks in a row
lower a timer by n, saturating at zero.
A tick in Halted is the spec's own, D20. -/
def Obligations.TicksCountDownAndSaturate : Prop :=
  (∀ s : State, s.tick.dt.toNat = s.dt.toNat - 1 ∧ s.tick.st.toNat = s.st.toNat - 1 ∧
    Frame s s.tick [.dt, .st] []) ∧
  (∀ (s : State) (n : Nat), ∃ t, runEvents (List.replicate n .tick) s = .next t ∧ t.dt.toNat = s.dt.toNat - n ∧
    t.st.toNat = s.st.toNat - n ∧ Frame s t [.dt, .st] [])

/-- R144: set_key sets the flag of its key and of no other, and changes nothing else.
A 4-bit key number is the spec's own, D35. -/
def Obligations.SetKeySetsOneKey : Prop :=
  ∀ (s : State) (k : Key) (b : Bool), (s.setKey k b).isPressed k = b ∧
    (∀ j, j ≠ k → (s.setKey k b).isPressed j = s.isPressed j) ∧ Frame s (s.setKey k b) [.keys] []

/-! ### Which instruction writes what (10_state.md) -/

/-- R37, R40, R42, R44, R51, R111: the display is written by 00E0 and Dxyn alone, the return stack by 2nnn and 00EE, DT
by Fx15 and ST by Fx18, memory by Fx33 and Fx55; a random byte is drawn by Cxkk alone; no instruction writes the latch
or the parameters. -/
def Obligations.WhichInstructionWritesWhat : Prop :=
  ∀ (i : Instr) (s t : State), exec i s = .next t →
    ((∃ c, pixel t.disp c ≠ pixel s.disp c) → i = .cls ∨ ∃ x y n, i = .drw x y n) ∧
    (t.stack ≠ s.stack → i = .ret ∨ ∃ nnn, i = .call nnn) ∧
    (t.dt ≠ s.dt → ∃ x, i = .ldDtVx x) ∧ (t.st ≠ s.st → ∃ x, i = .ldStVx x) ∧
    ((∃ a, t.byteAt a ≠ s.byteAt a) → ∃ x, i = .ldBVx x ∨ i = .ldMemVx x) ∧
    (t.draws ≠ s.draws → ∃ x kk, i = .rnd x kk) ∧ (∀ k, t.isPressed k = s.isPressed k) ∧ t.cfg = s.cfg

/-- R32: I is written by Annn, Fx1E, Fx29, and by Fx55 and Fx65 only under P_LDST_I = Increment.
I after Fx55 and Fx65 is the spec's own, D6. -/
def Obligations.WhichInstructionWritesI : Prop :=
  ∀ (i : Instr) (s t : State), exec i s = .next t → t.i ≠ s.i →
    (∃ nnn, i = .ldI nnn) ∨ (∃ x, i = .addIVx x ∨ i = .ldFVx x) ∨
      (s.cfg.ldstI = .increment ∧ ∃ x, i = .ldMemVx x ∨ i = .ldVxMem x)

/-- R27, R29: a register changes only as a nominal destination, or as VF by an instruction that writes the flag.
The opcode list is the spec's own, [from general knowledge, not in source]. -/
def Obligations.WhichInstructionWritesRegisters : Prop :=
  ∀ (i : Instr) (s t : State) (r : RegIdx), exec i s = .next t → t.getV r ≠ s.getV r →
    r ∈ nominalDests i ∨ (r = vf ∧ writesFlag s.cfg i = true)

/-- R34, R84: an instruction outside 1nnn, 2nnn, 00EE, Bnnn, Fx0A and the six skips that does not raise ends with
PC + 2. -/
def Obligations.DefaultPcAdvance : Prop :=
  ∀ (i : Instr) (s t : State), s.status = .running → exec i s = .next t → t.status = .running →
    (∀ nnn, i ≠ .jp nnn ∧ i ≠ .call nnn ∧ i ≠ .jpV0 nnn) → i ≠ .ret →
    (∀ x kk, i ≠ .seImm x kk ∧ i ≠ .sneImm x kk) → (∀ x y g, i ≠ .seReg x y g ∧ i ≠ .sneReg x y g) →
    (∀ x, i ≠ .skp x ∧ i ≠ .sknp x ∧ i ≠ .ldVxK x) → PcPlus s t 2

/-! ### Control flow (41_control_flow.md) -/

/-- R89: SYS is a no-operation or raises UnknownOpcode, by P_SYS. -/
def Obligations.SysActsByParameter : Prop :=
  ∀ (nnn : Addr12) (s : State),
    (nnn ≠ 0x0E0 → nnn ≠ 0x0EE → decode (wordNNN 0x0 nnn) = .ok (.sys nnn)) ∧
    (s.cfg.sys = .nop → ∃ t, exec (.sys nnn) s = .next t ∧ PcPlus s t 2 ∧ Frame s t [.pc] []) ∧
    (s.cfg.sys = .halt → ∃ t, exec (.sys nnn) s = .next t ∧ HaltedFrom s t .unknownOpcode (some (wordNNN 0x0 nnn)))

/-- R90: RET pops the last return address into PC as is, or raises StackUnderflow.
RET adding nothing is the spec's own, D30; so is that a raise changes the status alone, D16, log entry 15. -/
def Obligations.RetPopsIntoPc : Prop :=
  decode 0x00EE = .ok .ret ∧ ∀ s : State,
    (∀ (older : List Word) (a : Word), s.stack = older ++ [a] →
      ∃ t, exec .ret s = .next t ∧ t.pc = a ∧ t.stack = older ∧ Frame s t [.pc, .stack] [] ∧
        (0x0FFF ≤ a.toNat → t.fetch = none)) ∧
    (s.stack = [] → ∃ t, exec .ret s = .next t ∧ HaltedFrom s t .stackUnderflow (some 0x00EE))

/-- R91: JP takes the absolute target; an odd target is taken; a target of 0x0FFF fails at the next fetch.
The jump is the spec's own, [from general knowledge, not in source]. -/
def Obligations.JpSetsPc : Prop :=
  ∀ (nnn : Addr12) (s : State), decode (wordNNN 0x1 nnn) = .ok (.jp nnn) ∧
    ∃ t, exec (.jp nnn) s = .next t ∧ t.pc.toNat = nnn.toNat ∧ Frame s t [.pc] [] ∧
      (nnn = 0xFFF → t.fetch = none)

/-- R92: CALL pushes PC + 2 and jumps, or raises StackOverflow when 16 entries are held.
Pushing PC + 2 is the spec's own, D30; so is that a raise changes the status alone, D16, log entry 15. -/
def Obligations.CallPushesAndJumps : Prop :=
  ∀ (nnn : Addr12) (s : State), decode (wordNNN 0x2 nnn) = .ok (.call nnn) ∧
    (s.stack.length < 16 → ∃ t, exec (.call nnn) s = .next t ∧ t.stack = s.stack ++ [trunc16 (s.pc.toNat + 2)] ∧
      t.pc.toNat = nnn.toNat ∧ Frame s t [.pc, .stack] []) ∧
    (16 ≤ s.stack.length →
      ∃ t, exec (.call nnn) s = .next t ∧ HaltedFrom s t .stackOverflow (some (wordNNN 0x2 nnn)))

/-- R90, R92, D30: a RET right after a CALL comes back to the word after the call with the stack as it was. -/
def Obligations.ReturnUndoesCall : Prop :=
  ∀ (nnn : Addr12) (s : State), s.stack.length < 16 →
    ∃ t u, exec (.call nnn) s = .next t ∧ exec .ret t = .next u ∧ PcPlus s u 2 ∧ Frame s u [.pc] []

/-- R88, R93, R95: SE skips the next word exactly when its operands are equal; every low nibble of 5xy_ is the same
instruction. -/
def Obligations.SkipIfEqual : Prop :=
  ∀ (x y : RegIdx) (kk : Byte) (g : Nibble) (s : State),
    decode (wordXKK 0x3 x kk) = .ok (.seImm x kk) ∧ decode (wordXYN 0x5 x y g) = .ok (.seReg x y g) ∧
    (∃ t, exec (.seImm x kk) s = .next t ∧ PcPlus s t (if s.getV x = kk then 4 else 2) ∧ Frame s t [.pc] []) ∧
    (∃ t, exec (.seReg x y g) s = .next t ∧ PcPlus s t (if s.getV x = s.getV y then 4 else 2) ∧ Frame s t [.pc] [])

/-- R88, R94, R96: SNE skips the next word exactly when its operands differ; every low nibble of 9xy_ is the same
instruction. -/
def Obligations.SkipIfNotEqual : Prop :=
  ∀ (x y : RegIdx) (kk : Byte) (g : Nibble) (s : State),
    decode (wordXKK 0x4 x kk) = .ok (.sneImm x kk) ∧ decode (wordXYN 0x9 x y g) = .ok (.sneReg x y g) ∧
    (∃ t, exec (.sneImm x kk) s = .next t ∧ PcPlus s t (if s.getV x ≠ kk then 4 else 2) ∧ Frame s t [.pc] []) ∧
    (∃ t, exec (.sneReg x y g) s = .next t ∧ PcPlus s t (if s.getV x ≠ s.getV y then 4 else 2) ∧ Frame s t [.pc] [])

/-- R97: JP V0 adds the offset register to nnn, V0 or Vx with x the top nibble of nnn by P_JUMP_REG, and does not
reduce the sum to 12 bits; a sum of 0x0FFF or more fails at the next fetch.
The unreduced sum is the spec's own, D8. -/
def Obligations.JpV0AddsOffset : Prop :=
  ∀ (nnn : Addr12) (s : State), decode (wordNNN 0xB nnn) = .ok (.jpV0 nnn) ∧
    ∃ t, exec (.jpV0 nnn) s = .next t ∧
      (s.cfg.jumpReg = .v0 → t.pc.toNat = (s.getV 0).toNat + nnn.toNat) ∧
      (s.cfg.jumpReg = .vx → t.pc.toNat = (s.getV (fieldX (wordNNN 0xB nnn))).toNat + nnn.toNat) ∧
      Frame s t [.pc] [] ∧ (0x0FFF ≤ t.pc.toNat → t.fetch = none)

/-! ### Arithmetic and logic (42_alu.md) -/

/-- R100, R102: the two register loads. -/
def Obligations.LoadRegister : Prop :=
  ∀ (x y : RegIdx) (kk : Byte) (s : State),
    decode (wordXKK 0x6 x kk) = .ok (.ldImm x kk) ∧ decode (wordXYN 0x8 x y 0x0) = .ok (.ldReg x y) ∧
    (∃ t, exec (.ldImm x kk) s = .next t ∧ t.getV x = kk ∧ PcPlus s t 2 ∧ Frame s t [.pc] [x]) ∧
    (∃ t, exec (.ldReg x y) s = .next t ∧ t.getV x = s.getV y ∧ PcPlus s t 2 ∧ Frame s t [.pc] [x])

/-- R101: the immediate add wraps mod 256 and writes no flag: VF changes only as the destination.
The absence of a flag is the spec's own, D33. -/
def Obligations.AddImmediateWritesNoFlag : Prop :=
  ∀ (x : RegIdx) (kk : Byte) (s : State), decode (wordXKK 0x7 x kk) = .ok (.addImm x kk) ∧
    ∃ t, exec (.addImm x kk) s = .next t ∧ (t.getV x).toNat = ((s.getV x).toNat + kk.toNat) % 256 ∧
      PcPlus s t 2 ∧ Frame s t [.pc] [x]

/-- R103, R104, R105: OR, AND, XOR. Under P_LOGIC_VF = Reset VF is cleared after the result is written, so it wins for
x = F; else VF is written only as the destination. -/
def Obligations.LogicOperations : Prop :=
  ∀ (x y : RegIdx) (s : State),
    decode (wordXYN 0x8 x y 0x1) = .ok (.orReg x y) ∧ decode (wordXYN 0x8 x y 0x2) = .ok (.andReg x y) ∧
    decode (wordXYN 0x8 x y 0x3) = .ok (.xorReg x y) ∧
    ∀ p ∈ [(Instr.orReg x y, s.getV x ||| s.getV y), (Instr.andReg x y, s.getV x &&& s.getV y),
        (Instr.xorReg x y, s.getV x ^^^ s.getV y)],
      ∃ t, exec p.1 s = .next t ∧ PcPlus s t 2 ∧
        (s.cfg.logicVf = .unchanged → t.getV x = p.2 ∧ Frame s t [.pc] [x]) ∧
        (s.cfg.logicVf = .reset → t.getV 0xF = 0 ∧ (x ≠ 0xF → t.getV x = p.2) ∧ Frame s t [.pc] [x, 0xF])

/-- R106: ADD with carry; the flag is computed from the old operands and written last, so with x = F the register
ends holding the flag. -/
def Obligations.AddSetsCarry : Prop :=
  ∀ (x y : RegIdx) (s : State), decode (wordXYN 0x8 x y 0x4) = .ok (.addReg x y) ∧
    ∃ t, exec (.addReg x y) s = .next t ∧
      (x ≠ 0xF → (t.getV x).toNat = ((s.getV x).toNat + (s.getV y).toNat) % 256) ∧
      t.getV 0xF = (if 255 < (s.getV x).toNat + (s.getV y).toNat then 1 else 0) ∧
      PcPlus s t 2 ∧ Frame s t [.pc] [x, 0xF]

/-- R107: SUB, Vx - Vy, wraps mod 256; VF is 1 when no borrow occurred and is written last. -/
def Obligations.SubSetsNotBorrow : Prop :=
  ∀ (x y : RegIdx) (s : State), decode (wordXYN 0x8 x y 0x5) = .ok (.sub x y) ∧
    ∃ t, exec (.sub x y) s = .next t ∧
      (x ≠ 0xF → (t.getV x).toNat = ((s.getV x).toNat + 256 - (s.getV y).toNat) % 256) ∧
      t.getV 0xF = (if (s.getV y).toNat ≤ (s.getV x).toNat then 1 else 0) ∧
      PcPlus s t 2 ∧ Frame s t [.pc] [x, 0xF]

/-- R108: SUBN, Vy - Vx, wraps mod 256; VF is 1 when no borrow occurred and is written last.
The operand order is the spec's own, [from general knowledge, not in source]. -/
def Obligations.SubnSetsNotBorrow : Prop :=
  ∀ (x y : RegIdx) (s : State), decode (wordXYN 0x8 x y 0x7) = .ok (.subn x y) ∧
    ∃ t, exec (.subn x y) s = .next t ∧
      (x ≠ 0xF → (t.getV x).toNat = ((s.getV y).toNat + 256 - (s.getV x).toNat) % 256) ∧
      t.getV 0xF = (if (s.getV x).toNat ≤ (s.getV y).toNat then 1 else 0) ∧
      PcPlus s t 2 ∧ Frame s t [.pc] [x, 0xF]

/-- R109, R110: the shifts by one of Vx or Vy, by P_SHIFT_SRC; VF is the bit shifted out. -/
def Obligations.ShiftsSetBitShiftedOut : Prop :=
  ∀ (x y : RegIdx) (s : State) (v : Byte),
    (s.cfg.shiftSrc = .vx → v = s.getV x) → (s.cfg.shiftSrc = .vy → v = s.getV y) →
    decode (wordXYN 0x8 x y 0x6) = .ok (.shr x y) ∧ decode (wordXYN 0x8 x y 0xE) = .ok (.shl x y) ∧
    (∃ t, exec (.shr x y) s = .next t ∧ (x ≠ 0xF → (t.getV x).toNat = v.toNat / 2) ∧
      (t.getV 0xF).toNat = v.toNat % 2 ∧ PcPlus s t 2 ∧ Frame s t [.pc] [x, 0xF]) ∧
    (∃ t, exec (.shl x y) s = .next t ∧ (x ≠ 0xF → (t.getV x).toNat = v.toNat * 2 % 256) ∧
      (t.getV 0xF).toNat = v.toNat / 128 ∧ PcPlus s t 2 ∧ Frame s t [.pc] [x, 0xF])

/-- R111: RND draws exactly one byte, of which nothing is known, and stores it under the mask; kk = 0 gives 0 whatever
is drawn, and no other instruction draws.
The AND is the spec's own, [from general knowledge, not in source]; the byte is free, log entry 4. -/
def Obligations.RandomIsMaskedDraw : Prop :=
  (∀ (x : RegIdx) (kk : Byte) (s : State), decode (wordXKK 0xC x kk) = .ok (.rnd x kk) ∧
    ∃ t, exec (.rnd x kk) s = .next t ∧ t.getV x = Config.randomByte s.draws &&& kk ∧ (kk = 0 → t.getV x = 0) ∧
      t.draws = s.draws + 1 ∧ PcPlus s t 2 ∧ Frame s t [.pc, .draws] [x]) ∧
  (∀ (i : Instr) (s t : State), exec i s = .next t → (∀ x kk, i ≠ .rnd x kk) → t.draws = s.draws)

/-! ### Index register and memory (43_index_memory.md) -/

/-- R114: LD I. -/
def Obligations.LoadIndex : Prop :=
  ∀ (nnn : Addr12) (s : State), decode (wordNNN 0xA nnn) = .ok (.ldI nnn) ∧
    ∃ t, exec (.ldI nnn) s = .next t ∧ t.i.toNat = nnn.toNat ∧ PcPlus s t 2 ∧ Frame s t [.pc, .i] []

/-- R115: ADD I wraps at 16 bits; VF is written only under P_FX1E_VF = Overflow12, from the old VF, as whether the sum
exceeds 0x0FFF.
The 16-bit wrap and the threshold are the spec's own, D18, D5. -/
def Obligations.AddIndex : Prop :=
  ∀ (x : RegIdx) (s : State), decode (wordXKK 0xF x 0x1E) = .ok (.addIVx x) ∧
    ∃ t, exec (.addIVx x) s = .next t ∧ t.i.toNat = (s.i.toNat + (s.getV x).toNat) % 65536 ∧ PcPlus s t 2 ∧
      (s.cfg.fx1eVf = .unchanged → Frame s t [.pc, .i] []) ∧
      (s.cfg.fx1eVf = .overflow12 →
        t.getV 0xF = (if 0x0FFF < s.i.toNat + (s.getV x).toNat then 1 else 0) ∧ Frame s t [.pc, .i] [0xF])

/-- R116: LD F points I at the glyph of the digit, the low nibble of Vx or all of it by P_FONT_DIGIT.
The instruction is the spec's own, D10, D11. -/
def Obligations.LoadFontAddress : Prop :=
  ∀ (x : RegIdx) (s : State), decode (wordXKK 0xF x 0x29) = .ok (.ldFVx x) ∧
    (s.cfg.ok → ∃ t, exec (.ldFVx x) s = .next t ∧
      (s.cfg.fontDigit = .lowNibble → t.i.toNat = s.cfg.fontBase + 5 * ((s.getV x).toNat % 16)) ∧
      (s.cfg.fontDigit = .unmasked → t.i.toNat = s.cfg.fontBase + 5 * (s.getV x).toNat) ∧
      PcPlus s t 2 ∧ Frame s t [.pc, .i] [])

/-- R113, R117: LD B stores the three decimal digits of Vx, hundreds first, and nothing else; where I + 2 ≥ 4096 it
raises OutOfBounds and stores nothing.
The digit order is the spec's own, D40; that a raise stores nothing and changes the status alone is the spec's own too,
D16, log entry 15. -/
def Obligations.StoreBcd : Prop :=
  ∀ (x : RegIdx) (s : State), decode (wordXKK 0xF x 0x33) = .ok (.ldBVx x) ∧
    (s.dataAddr + 2 < 4096 → ∃ t, exec (.ldBVx x) s = .next t ∧
      (t.byteAt s.dataAddr).toNat = (s.getV x).toNat / 100 ∧
      (t.byteAt (s.dataAddr + 1)).toNat = (s.getV x).toNat / 10 % 10 ∧
      (t.byteAt (s.dataAddr + 2)).toNat = (s.getV x).toNat % 10 ∧
      SameBytesOutside s t s.dataAddr 3 ∧ PcPlus s t 2 ∧ Frame s t [.pc, .mem] []) ∧
    (4096 ≤ s.dataAddr + 2 →
      ∃ t, exec (.ldBVx x) s = .next t ∧ HaltedFrom s t .outOfBounds (some (wordXKK 0xF x 0x33)))

/-- R113, R118: LD [I] stores V0..Vx at I..I + x and nothing else, and advances I under P_LDST_I = Increment; where
I + x ≥ 4096 it raises OutOfBounds and stores nothing, not even below 4096.
That a raise stores nothing and changes the status alone is the spec's own, D16, log entry 15. -/
def Obligations.StoreRegisters : Prop :=
  ∀ (x : RegIdx) (s : State), decode (wordXKK 0xF x 0x55) = .ok (.ldMemVx x) ∧
    (s.dataAddr + x.toNat < 4096 → ∃ t, exec (.ldMemVx x) s = .next t ∧
      (∀ k : RegIdx, k ≤ x → t.byteAt (s.dataAddr + k.toNat) = s.getV k) ∧
      SameBytesOutside s t s.dataAddr (x.toNat + 1) ∧
      (s.cfg.ldstI = .unchanged → t.i = s.i) ∧
      (s.cfg.ldstI = .increment → t.i.toNat = (s.i.toNat + x.toNat + 1) % 65536) ∧
      PcPlus s t 2 ∧ Frame s t [.pc, .mem, .i] []) ∧
    (4096 ≤ s.dataAddr + x.toNat →
      ∃ t, exec (.ldMemVx x) s = .next t ∧ HaltedFrom s t .outOfBounds (some (wordXKK 0xF x 0x55)))

/-- R113, R119: LD Vx, [I] loads V0..Vx from I..I + x, advances I under P_LDST_I = Increment, and changes no memory;
where I + x ≥ 4096 it raises OutOfBounds and loads nothing.
That a raise loads nothing and changes the status alone is the spec's own, D16, log entry 15. -/
def Obligations.LoadRegisters : Prop :=
  ∀ (x : RegIdx) (s : State), decode (wordXKK 0xF x 0x65) = .ok (.ldVxMem x) ∧
    (s.dataAddr + x.toNat < 4096 → ∃ t, exec (.ldVxMem x) s = .next t ∧
      (∀ k : RegIdx, k ≤ x → t.getV k = s.byteAt (s.dataAddr + k.toNat)) ∧
      (∀ k : RegIdx, x < k → t.getV k = s.getV k) ∧
      (s.cfg.ldstI = .unchanged → t.i = s.i) ∧
      (s.cfg.ldstI = .increment → t.i.toNat = (s.i.toNat + x.toNat + 1) % 65536) ∧
      PcPlus s t 2 ∧ Frame s t [.pc, .i] (regsTo x)) ∧
    (4096 ≤ s.dataAddr + x.toNat →
      ∃ t, exec (.ldVxMem x) s = .next t ∧ HaltedFrom s t .outOfBounds (some (wordXKK 0xF x 0x65)))

/-! ### Display (44_display.md) -/

/-- R123: CLS turns every pixel off and changes nothing else. -/
def Obligations.ClearDisplay : Prop :=
  decode 0x00E0 = .ok .cls ∧ ∀ s : State, ∃ t, exec .cls s = .next t ∧ (∀ c, pixel t.disp c = false) ∧
    PcPlus s t 2 ∧ Frame s t [.pc, .disp] []

/-- R120, R121, R124: DRW toggles exactly the pixels that the sprite's 1 bits land on, both axes wrapped, and VF says
whether some pixel went from on to off; n = 0 draws nothing; where a sprite byte is past the end it raises OutOfBounds
and draws nothing.
The bit order and n = 0 are the spec's own, D14, D13, and so is that a raise changes the status alone, D16, log
entry 15. -/
def Obligations.DrawTogglesSpritePixels : Prop :=
  ∀ (x y : RegIdx) (n : Nibble) (s : State), decode (wordXYN 0xD x y n) = .ok (.drw x y n) ∧
    ((n = 0 ∨ s.dataAddr + n.toNat - 1 < 4096) → ∃ t, exec (.drw x y n) s = .next t ∧
      (∀ c, pixel t.disp c ≠ pixel s.disp c ↔ SpriteCovers s (s.getV x) (s.getV y) n.toNat c) ∧
      ((∃ c, pixel s.disp c = true ∧ pixel t.disp c = false) → t.getV 0xF = 1) ∧
      ((∀ c, pixel s.disp c = true → pixel t.disp c = true) → t.getV 0xF = 0) ∧
      PcPlus s t 2 ∧ Frame s t [.pc, .disp] [0xF]) ∧
    (0 < n.toNat → 4096 ≤ s.dataAddr + n.toNat - 1 →
      ∃ t, exec (.drw x y n) s = .next t ∧ HaltedFrom s t .outOfBounds (some (wordXYN 0xD x y n)))

/-- R122: within one draw no display pixel is toggled twice.
R122 is [derived: from rule R121]. -/
def Obligations.NoPixelIsToggledTwice : Prop :=
  ∀ (x0 y0 : Byte) (bs : List Byte), bs.length ≤ 15 → (spritePlaces x0 y0 0 bs).Nodup

/-- R125: drawing onto a region that is all off reports no collision; drawing the same sprite again at the same
coordinates restores the display and, if the sprite has a 1 bit, reports a collision.
R125 is [derived: from rule R124]. -/
def Obligations.DrawingTwiceRestores : Prop :=
  ∀ (x y x' y' : RegIdx) (n : Nibble) (s t : State), (n = 0 ∨ s.dataAddr + n.toNat - 1 < 4096) →
    (∀ c, SpriteCovers s (s.getV x) (s.getV y) n.toNat c → pixel s.disp c = false) →
    exec (.drw x y n) s = .next t → t.getV x' = s.getV x → t.getV y' = s.getV y →
    t.getV 0xF = 0 ∧ ∃ u, exec (.drw x' y' n) t = .next u ∧ (∀ c, pixel u.disp c = pixel s.disp c) ∧
      ((∃ c, SpriteCovers s (s.getV x) (s.getV y) n.toNat c) → u.getV 0xF = 1)

/-! ### Timers and keys (45_timers_input.md) -/

/-- R41, R126, R127, R128: the timer loads; the tone is on exactly when ST is nonzero. -/
def Obligations.TimerLoads : Prop :=
  ∀ (x : RegIdx) (s : State),
    decode (wordXKK 0xF x 0x07) = .ok (.ldVxDt x) ∧ decode (wordXKK 0xF x 0x15) = .ok (.ldDtVx x) ∧
    decode (wordXKK 0xF x 0x18) = .ok (.ldStVx x) ∧
    (∃ t, exec (.ldVxDt x) s = .next t ∧ t.getV x = s.dt ∧ PcPlus s t 2 ∧ Frame s t [.pc] [x]) ∧
    (∃ t, exec (.ldDtVx x) s = .next t ∧ t.dt = s.getV x ∧ PcPlus s t 2 ∧ Frame s t [.pc, .dt] []) ∧
    (∃ t, exec (.ldStVx x) s = .next t ∧ t.st = s.getV x ∧ (t.tone = true ↔ s.getV x ≠ 0) ∧ PcPlus s t 2 ∧
      Frame s t [.pc, .st] [])

/-- R40: nothing inside the CORE reads the sound timer. From two states that differ only in ST, a step gives states that
differ only in ST.
It compares two runs that are supplied the same random byte and the same key choice: equal counters give equal free
values, the model's choice, log entries 4 and 5. -/
def Obligations.SoundTimerIsNeverRead : Prop :=
  ∀ (s : State) (b : Byte), ∃ t u, step s = .next t ∧ step { s with st := b } = .next u ∧
    { u with st := 0 } = { t with st := 0 }

/-- R129, R130, R131: the key skips test the key that Vx names; above 15 they raise InvalidKey or take the low nibble,
by P_KEY_INDEX.
That a raise changes the status alone is the spec's own, D16, log entry 15. -/
def Obligations.KeySkips : Prop :=
  ∀ (x : RegIdx) (s : State),
    decode (wordXKK 0xE x 0x9E) = .ok (.skp x) ∧ decode (wordXKK 0xE x 0xA1) = .ok (.sknp x) ∧
    (∀ k : Key, k.toNat = (s.getV x).toNat % 16 → ((s.getV x).toNat ≤ 15 ∨ s.cfg.keyIndex = .lowNibble) →
      (∃ t, exec (.skp x) s = .next t ∧ PcPlus s t (if s.isPressed k = true then 4 else 2) ∧ Frame s t [.pc] []) ∧
      (∃ t, exec (.sknp x) s = .next t ∧ PcPlus s t (if s.isPressed k = false then 4 else 2) ∧
        Frame s t [.pc] [])) ∧
    (15 < (s.getV x).toNat → s.cfg.keyIndex = .halt →
      (∃ t, exec (.skp x) s = .next t ∧ HaltedFrom s t .invalidKey (some (wordXKK 0xE x 0x9E))) ∧
      (∃ t, exec (.sknp x) s = .next t ∧ HaltedFrom s t .invalidKey (some (wordXKK 0xE x 0xA1))))

/-- R132: LD Vx, K enters WaitingForKey(x) and changes nothing else: PC stays and the latch is not tested, even with a
key pressed. While the host presses no key, further cycles change nothing; with one key latched the next cycle stores
it and advances PC by 2; ticks in between reach the timers.
The untested latch is the spec's own, D12. -/
def Obligations.KeyWaitIsIssuedThenEnded : Prop :=
  ∀ (x : RegIdx) (s : State), decode (wordXKK 0xF x 0x0A) = .ok (.ldVxK x) ∧
    ∃ t, exec (.ldVxK x) s = .next t ∧ t.status = .waitingForKey x ∧ Frame s t [.status] [] ∧
      ((∀ k, s.isPressed k = false) →
        (∀ m, runEvents (List.replicate m .cycle) t = .next t) ∧
        (∀ (m : Nat) (k : Key), ∃ u, runEvents (List.replicate m .cycle ++ [.setKey k true, .tick, .cycle]) t = .next u ∧
          (u.getV x).toNat = k.toNat ∧ PcPlus s u 2 ∧ u.status = .running ∧ u.dt.toNat = s.dt.toNat - 1 ∧
          Frame s u [.pc, .status, .keys, .dt, .st] [x]))
end

