-- ==== Sys2Proof/Laws/State.lean ====
section
/-! SUPPORT. One lemma per field per update of the state, so that no later proof unfolds a record update, and the
equations of the PC updates. -/

namespace Sys2Proof.Machine

/-! ### setV -/

@[simp] theorem setV_i (s : State) (x : RegIdx) (b : Byte) : (s.setV x b).i = s.i := rfl
@[simp] theorem setV_pc (s : State) (x : RegIdx) (b : Byte) : (s.setV x b).pc = s.pc := rfl
@[simp] theorem setV_stack (s : State) (x : RegIdx) (b : Byte) : (s.setV x b).stack = s.stack := rfl
@[simp] theorem setV_dt (s : State) (x : RegIdx) (b : Byte) : (s.setV x b).dt = s.dt := rfl
@[simp] theorem setV_st (s : State) (x : RegIdx) (b : Byte) : (s.setV x b).st = s.st := rfl
@[simp] theorem setV_mem (s : State) (x : RegIdx) (b : Byte) : (s.setV x b).mem = s.mem := rfl
@[simp] theorem setV_disp (s : State) (x : RegIdx) (b : Byte) : (s.setV x b).disp = s.disp := rfl
@[simp] theorem setV_keys (s : State) (x : RegIdx) (b : Byte) : (s.setV x b).keys = s.keys := rfl
@[simp] theorem setV_status (s : State) (x : RegIdx) (b : Byte) : (s.setV x b).status = s.status := rfl
@[simp] theorem setV_cfg (s : State) (x : RegIdx) (b : Byte) : (s.setV x b).cfg = s.cfg := rfl
@[simp] theorem setV_draws (s : State) (x : RegIdx) (b : Byte) : (s.setV x b).draws = s.draws := rfl
@[simp] theorem setV_choices (s : State) (x : RegIdx) (b : Byte) : (s.setV x b).choices = s.choices := rfl
@[simp] theorem byteAt_setV (s : State) (x : RegIdx) (b : Byte) (a : Nat) : (s.setV x b).byteAt a = s.byteAt a := rfl
@[simp] theorem isPressed_setV (s : State) (x : RegIdx) (b : Byte) (k : Key) : (s.setV x b).isPressed k = s.isPressed k := rfl

/-! ### setI -/

@[simp] theorem setI_v (s : State) (w : Word) : (s.setI w).v = s.v := rfl
@[simp] theorem setI_i (s : State) (w : Word) : (s.setI w).i = w := rfl
@[simp] theorem setI_pc (s : State) (w : Word) : (s.setI w).pc = s.pc := rfl
@[simp] theorem setI_stack (s : State) (w : Word) : (s.setI w).stack = s.stack := rfl
@[simp] theorem setI_dt (s : State) (w : Word) : (s.setI w).dt = s.dt := rfl
@[simp] theorem setI_st (s : State) (w : Word) : (s.setI w).st = s.st := rfl
@[simp] theorem setI_mem (s : State) (w : Word) : (s.setI w).mem = s.mem := rfl
@[simp] theorem setI_disp (s : State) (w : Word) : (s.setI w).disp = s.disp := rfl
@[simp] theorem setI_keys (s : State) (w : Word) : (s.setI w).keys = s.keys := rfl
@[simp] theorem setI_status (s : State) (w : Word) : (s.setI w).status = s.status := rfl
@[simp] theorem setI_cfg (s : State) (w : Word) : (s.setI w).cfg = s.cfg := rfl
@[simp] theorem setI_draws (s : State) (w : Word) : (s.setI w).draws = s.draws := rfl
@[simp] theorem setI_choices (s : State) (w : Word) : (s.setI w).choices = s.choices := rfl
@[simp] theorem getV_setI (s : State) (w : Word) (r : RegIdx) : (s.setI w).getV r = s.getV r := rfl
@[simp] theorem byteAt_setI (s : State) (w : Word) (a : Nat) : (s.setI w).byteAt a = s.byteAt a := rfl
@[simp] theorem isPressed_setI (s : State) (w : Word) (k : Key) : (s.setI w).isPressed k = s.isPressed k := rfl

/-! ### setPc -/

@[simp] theorem setPc_v (s : State) (w : Word) : (s.setPc w).v = s.v := rfl
@[simp] theorem setPc_i (s : State) (w : Word) : (s.setPc w).i = s.i := rfl
@[simp] theorem setPc_pc (s : State) (w : Word) : (s.setPc w).pc = w := rfl
@[simp] theorem setPc_stack (s : State) (w : Word) : (s.setPc w).stack = s.stack := rfl
@[simp] theorem setPc_dt (s : State) (w : Word) : (s.setPc w).dt = s.dt := rfl
@[simp] theorem setPc_st (s : State) (w : Word) : (s.setPc w).st = s.st := rfl
@[simp] theorem setPc_mem (s : State) (w : Word) : (s.setPc w).mem = s.mem := rfl
@[simp] theorem setPc_disp (s : State) (w : Word) : (s.setPc w).disp = s.disp := rfl
@[simp] theorem setPc_keys (s : State) (w : Word) : (s.setPc w).keys = s.keys := rfl
@[simp] theorem setPc_status (s : State) (w : Word) : (s.setPc w).status = s.status := rfl
@[simp] theorem setPc_cfg (s : State) (w : Word) : (s.setPc w).cfg = s.cfg := rfl
@[simp] theorem setPc_draws (s : State) (w : Word) : (s.setPc w).draws = s.draws := rfl
@[simp] theorem setPc_choices (s : State) (w : Word) : (s.setPc w).choices = s.choices := rfl
@[simp] theorem getV_setPc (s : State) (w : Word) (r : RegIdx) : (s.setPc w).getV r = s.getV r := rfl
@[simp] theorem byteAt_setPc (s : State) (w : Word) (a : Nat) : (s.setPc w).byteAt a = s.byteAt a := rfl
@[simp] theorem isPressed_setPc (s : State) (w : Word) (k : Key) : (s.setPc w).isPressed k = s.isPressed k := rfl

/-! ### setRegsFrom0 -/

@[simp] theorem setRegsFrom0_i (s : State) (bs : List Byte) : (s.setRegsFrom0 bs).i = s.i := rfl
@[simp] theorem setRegsFrom0_pc (s : State) (bs : List Byte) : (s.setRegsFrom0 bs).pc = s.pc := rfl
@[simp] theorem setRegsFrom0_stack (s : State) (bs : List Byte) : (s.setRegsFrom0 bs).stack = s.stack := rfl
@[simp] theorem setRegsFrom0_dt (s : State) (bs : List Byte) : (s.setRegsFrom0 bs).dt = s.dt := rfl
@[simp] theorem setRegsFrom0_st (s : State) (bs : List Byte) : (s.setRegsFrom0 bs).st = s.st := rfl
@[simp] theorem setRegsFrom0_mem (s : State) (bs : List Byte) : (s.setRegsFrom0 bs).mem = s.mem := rfl
@[simp] theorem setRegsFrom0_disp (s : State) (bs : List Byte) : (s.setRegsFrom0 bs).disp = s.disp := rfl
@[simp] theorem setRegsFrom0_keys (s : State) (bs : List Byte) : (s.setRegsFrom0 bs).keys = s.keys := rfl
@[simp] theorem setRegsFrom0_status (s : State) (bs : List Byte) : (s.setRegsFrom0 bs).status = s.status := rfl
@[simp] theorem setRegsFrom0_cfg (s : State) (bs : List Byte) : (s.setRegsFrom0 bs).cfg = s.cfg := rfl
@[simp] theorem setRegsFrom0_draws (s : State) (bs : List Byte) : (s.setRegsFrom0 bs).draws = s.draws := rfl
@[simp] theorem setRegsFrom0_choices (s : State) (bs : List Byte) : (s.setRegsFrom0 bs).choices = s.choices := rfl
@[simp] theorem byteAt_setRegsFrom0 (s : State) (bs : List Byte) (a : Nat) : (s.setRegsFrom0 bs).byteAt a = s.byteAt a := rfl
@[simp] theorem isPressed_setRegsFrom0 (s : State) (bs : List Byte) (k : Key) : (s.setRegsFrom0 bs).isPressed k = s.isPressed k := rfl

/-! ### tick -/

@[simp] theorem tick_v (s : State) : s.tick.v = s.v := rfl
@[simp] theorem tick_i (s : State) : s.tick.i = s.i := rfl
@[simp] theorem tick_pc (s : State) : s.tick.pc = s.pc := rfl
@[simp] theorem tick_stack (s : State) : s.tick.stack = s.stack := rfl
@[simp] theorem tick_dt (s : State) : s.tick.dt = tickTimer s.dt := rfl
@[simp] theorem tick_st (s : State) : s.tick.st = tickTimer s.st := rfl
@[simp] theorem tick_mem (s : State) : s.tick.mem = s.mem := rfl
@[simp] theorem tick_disp (s : State) : s.tick.disp = s.disp := rfl
@[simp] theorem tick_keys (s : State) : s.tick.keys = s.keys := rfl
@[simp] theorem tick_status (s : State) : s.tick.status = s.status := rfl
@[simp] theorem tick_cfg (s : State) : s.tick.cfg = s.cfg := rfl
@[simp] theorem tick_draws (s : State) : s.tick.draws = s.draws := rfl
@[simp] theorem tick_choices (s : State) : s.tick.choices = s.choices := rfl
@[simp] theorem getV_tick (s : State) (r : RegIdx) : s.tick.getV r = s.getV r := rfl
@[simp] theorem byteAt_tick (s : State) (a : Nat) : s.tick.byteAt a = s.byteAt a := rfl
@[simp] theorem isPressed_tick (s : State) (k : Key) : s.tick.isPressed k = s.isPressed k := rfl

/-! ### setKey -/

@[simp] theorem setKey_v (k : Key) (b : Bool) (s : State) : (s.setKey k b).v = s.v := rfl
@[simp] theorem setKey_i (k : Key) (b : Bool) (s : State) : (s.setKey k b).i = s.i := rfl
@[simp] theorem setKey_pc (k : Key) (b : Bool) (s : State) : (s.setKey k b).pc = s.pc := rfl
@[simp] theorem setKey_stack (k : Key) (b : Bool) (s : State) : (s.setKey k b).stack = s.stack := rfl
@[simp] theorem setKey_dt (k : Key) (b : Bool) (s : State) : (s.setKey k b).dt = s.dt := rfl
@[simp] theorem setKey_st (k : Key) (b : Bool) (s : State) : (s.setKey k b).st = s.st := rfl
@[simp] theorem setKey_mem (k : Key) (b : Bool) (s : State) : (s.setKey k b).mem = s.mem := rfl
@[simp] theorem setKey_disp (k : Key) (b : Bool) (s : State) : (s.setKey k b).disp = s.disp := rfl
@[simp] theorem setKey_status (k : Key) (b : Bool) (s : State) : (s.setKey k b).status = s.status := rfl
@[simp] theorem setKey_cfg (k : Key) (b : Bool) (s : State) : (s.setKey k b).cfg = s.cfg := rfl
@[simp] theorem setKey_draws (k : Key) (b : Bool) (s : State) : (s.setKey k b).draws = s.draws := rfl
@[simp] theorem setKey_choices (k : Key) (b : Bool) (s : State) : (s.setKey k b).choices = s.choices := rfl
@[simp] theorem getV_setKey (k : Key) (b : Bool) (s : State) (r : RegIdx) : (s.setKey k b).getV r = s.getV r := rfl
@[simp] theorem byteAt_setKey (k : Key) (b : Bool) (s : State) (a : Nat) : (s.setKey k b).byteAt a = s.byteAt a := rfl

/-! ### raise -/

@[simp] theorem raise_v (e : HaltReason) (o : Option Word) (s : State) : (raise e o s).v = s.v := rfl
@[simp] theorem raise_i (e : HaltReason) (o : Option Word) (s : State) : (raise e o s).i = s.i := rfl
@[simp] theorem raise_pc (e : HaltReason) (o : Option Word) (s : State) : (raise e o s).pc = s.pc := rfl
@[simp] theorem raise_stack (e : HaltReason) (o : Option Word) (s : State) : (raise e o s).stack = s.stack := rfl
@[simp] theorem raise_dt (e : HaltReason) (o : Option Word) (s : State) : (raise e o s).dt = s.dt := rfl
@[simp] theorem raise_st (e : HaltReason) (o : Option Word) (s : State) : (raise e o s).st = s.st := rfl
@[simp] theorem raise_mem (e : HaltReason) (o : Option Word) (s : State) : (raise e o s).mem = s.mem := rfl
@[simp] theorem raise_disp (e : HaltReason) (o : Option Word) (s : State) : (raise e o s).disp = s.disp := rfl
@[simp] theorem raise_keys (e : HaltReason) (o : Option Word) (s : State) : (raise e o s).keys = s.keys := rfl
@[simp] theorem raise_status (e : HaltReason) (o : Option Word) (s : State) : (raise e o s).status = .halted e s.pc o := rfl
@[simp] theorem raise_cfg (e : HaltReason) (o : Option Word) (s : State) : (raise e o s).cfg = s.cfg := rfl
@[simp] theorem raise_draws (e : HaltReason) (o : Option Word) (s : State) : (raise e o s).draws = s.draws := rfl
@[simp] theorem raise_choices (e : HaltReason) (o : Option Word) (s : State) : (raise e o s).choices = s.choices := rfl
@[simp] theorem getV_raise (e : HaltReason) (o : Option Word) (s : State) (r : RegIdx) : (raise e o s).getV r = s.getV r := rfl
@[simp] theorem byteAt_raise (e : HaltReason) (o : Option Word) (s : State) (a : Nat) : (raise e o s).byteAt a = s.byteAt a := rfl
@[simp] theorem isPressed_raise (e : HaltReason) (o : Option Word) (s : State) (k : Key) : (raise e o s).isPressed k = s.isPressed k := rfl

/-! ### install and construct -/

theorem memSize_eq : memSize = 4096 := rfl
theorem stackDepth_eq : stackDepth = 16 := rfl
theorem loadOffset_eq : loadOffset = 0x200 := rfl

@[simp] theorem construct_i (p : Params) : (State.construct p).i = 0 := rfl
@[simp] theorem construct_pc (p : Params) : (State.construct p).pc = trunc16 loadOffset := rfl
@[simp] theorem construct_stack (p : Params) : (State.construct p).stack = [] := rfl
@[simp] theorem construct_dt (p : Params) : (State.construct p).dt = 0 := rfl
@[simp] theorem construct_st (p : Params) : (State.construct p).st = 0 := rfl
@[simp] theorem construct_status (p : Params) : (State.construct p).status = .running := rfl
@[simp] theorem construct_cfg (p : Params) : (State.construct p).cfg = p := rfl
@[simp] theorem construct_draws (p : Params) : (State.construct p).draws = 0 := rfl
@[simp] theorem construct_choices (p : Params) : (State.construct p).choices = 0 := rfl
@[simp] theorem getV_construct (p : Params) (x : RegIdx) : (State.construct p).getV x = 0 := by
  simp [State.getV, State.construct]
@[simp] theorem pixel_construct (p : Params) (c : Place) : pixel (State.construct p).disp c = false := by
  simp [pixel, State.construct]
@[simp] theorem isPressed_construct (p : Params) (k : Key) : (State.construct p).isPressed k = false := by
  simp [State.isPressed, State.construct]
@[simp] theorem byteAt_construct (p : Params) (a : Nat) : (State.construct p).byteAt a = launchByte p a := rfl

@[simp] theorem install_i (p : Params) (image : List Byte) (s : State) : (s.install p image).i = 0 := rfl
@[simp] theorem install_pc (p : Params) (image : List Byte) (s : State) : (s.install p image).pc = trunc16 loadOffset := rfl
@[simp] theorem install_stack (p : Params) (image : List Byte) (s : State) : (s.install p image).stack = [] := rfl
@[simp] theorem install_dt (p : Params) (image : List Byte) (s : State) : (s.install p image).dt = 0 := rfl
@[simp] theorem install_st (p : Params) (image : List Byte) (s : State) : (s.install p image).st = 0 := rfl
@[simp] theorem install_status (p : Params) (image : List Byte) (s : State) : (s.install p image).status = .running := rfl
@[simp] theorem install_cfg (p : Params) (image : List Byte) (s : State) : (s.install p image).cfg = p := rfl
@[simp] theorem install_draws (p : Params) (image : List Byte) (s : State) : (s.install p image).draws = s.draws := rfl
@[simp] theorem install_choices (p : Params) (image : List Byte) (s : State) : (s.install p image).choices = s.choices := rfl
@[simp] theorem getV_install (p : Params) (image : List Byte) (s : State) (x : RegIdx) :
    (s.install p image).getV x = 0 := getV_construct p x
@[simp] theorem pixel_install (p : Params) (image : List Byte) (s : State) (c : Place) :
    pixel (s.install p image).disp c = false := pixel_construct p c
@[simp] theorem isPressed_install (p : Params) (image : List Byte) (s : State) (k : Key) :
    (s.install p image).isPressed k = false := isPressed_construct p k

/-! ### PC updates are setPc -/

@[simp] theorem advanceBy_eq (s : State) (n : Nat) : s.advanceBy n = s.setPc (trunc16 (s.pc.toNat + n)) := rfl
@[simp] theorem advance_eq (s : State) : s.advance = s.setPc (trunc16 (s.pc.toNat + 2)) := rfl
@[simp] theorem skipIf_eq (s : State) (c : Bool) :
    s.skipIf c = s.setPc (trunc16 (s.pc.toNat + if c then 4 else 2)) := rfl

/-! ### Register reads after writes -/

theorem getV_setV (s : State) (x y : RegIdx) (b : Byte) :
    (s.setV x b).getV y = if x = y then b else s.getV y := by
  simp [State.getV, State.setV, Vector.getElem_set, ← BitVec.toNat_inj]

@[simp] theorem getV_setV_self (s : State) (x : RegIdx) (b : Byte) : (s.setV x b).getV x = b := by
  simp [getV_setV]

theorem getV_setV_of_ne {x y : RegIdx} (s : State) (b : Byte) (h : x ≠ y) : (s.setV x b).getV y = s.getV y := by
  simp [getV_setV, h]

@[simp] theorem getV_setRegsFrom0 (s : State) (bs : List Byte) (r : RegIdx) :
    (s.setRegsFrom0 bs).getV r = bs.getD r.toNat (s.getV r) := by
  simp [State.getV, State.setRegsFrom0]

theorem isPressed_setKey (k j : Key) (b : Bool) (s : State) :
    (s.setKey k b).isPressed j = if k = j then b else s.isPressed j := by
  simp [State.isPressed, State.setKey, Vector.getElem_set, ← BitVec.toNat_inj]

/-! ### Results that depend on a parameter -/

/-- A result and its flag: the flag wins in VF (R30). -/
theorem getV_setVFlag (s : State) (x r : RegIdx) (b : Byte) (c : Bool) :
    (s.setVFlag x b c).getV r = if vf = r then flagByte c else if x = r then b else s.getV r := by
  simp [State.setVFlag, getV_setV]

theorem setVFlag_frame (s : State) (x : RegIdx) (b : Byte) (c : Bool) : Frame s (s.setVFlag x b c) [] [x, vf] := by
  refine ⟨fun r hr => ?_, fun p _ => by cases p <;> simp [Part.Same, State.setVFlag]⟩
  simp only [List.mem_cons, List.not_mem_nil, or_false, not_or] at hr
  simp [getV_setVFlag, Ne.symm hr.1, Ne.symm hr.2]

@[simp] theorem setVFlag_pc (s : State) (x : RegIdx) (b : Byte) (c : Bool) : (s.setVFlag x b c).pc = s.pc := rfl

/-- A logic result: VF is cleared under P_LOGIC_VF = Reset only (R103 to R105). -/
theorem getV_setVLogic (s : State) (x r : RegIdx) (b : Byte) :
    (s.setVLogic x b).getV r =
      if s.cfg.logicVf = .reset ∧ vf = r then 0 else if x = r then b else s.getV r := by
  unfold State.setVLogic
  split <;> simp_all [getV_setV]

theorem setVLogic_eq (s : State) (x : RegIdx) (b : Byte) :
    ∃ v, s.setVLogic x b = { s with v := v } := by
  unfold State.setVLogic
  split <;> exact ⟨_, rfl⟩

@[simp] theorem setVLogic_pc (s : State) (x : RegIdx) (b : Byte) : (s.setVLogic x b).pc = s.pc := by
  obtain ⟨v, h⟩ := setVLogic_eq s x b
  rw [h]

theorem bumpI_eq (s : State) (x : RegIdx) :
    s.bumpI x = s ∧ s.cfg.ldstI = .unchanged ∨
      s.bumpI x = s.setI (trunc16 (s.i.toNat + x.toNat + 1)) ∧ s.cfg.ldstI = .increment := by
  unfold State.bumpI
  split <;> simp_all


@[simp] theorem setVFlag_i (s : State) (x : RegIdx) (b : Byte) (c : Bool) : (s.setVFlag x b c).i = s.i := rfl
@[simp] theorem setVFlag_stack (s : State) (x : RegIdx) (b : Byte) (c : Bool) : (s.setVFlag x b c).stack = s.stack := rfl
@[simp] theorem setVFlag_dt (s : State) (x : RegIdx) (b : Byte) (c : Bool) : (s.setVFlag x b c).dt = s.dt := rfl
@[simp] theorem setVFlag_st (s : State) (x : RegIdx) (b : Byte) (c : Bool) : (s.setVFlag x b c).st = s.st := rfl
@[simp] theorem setVFlag_mem (s : State) (x : RegIdx) (b : Byte) (c : Bool) : (s.setVFlag x b c).mem = s.mem := rfl
@[simp] theorem setVFlag_disp (s : State) (x : RegIdx) (b : Byte) (c : Bool) : (s.setVFlag x b c).disp = s.disp := rfl
@[simp] theorem setVFlag_keys (s : State) (x : RegIdx) (b : Byte) (c : Bool) : (s.setVFlag x b c).keys = s.keys := rfl
@[simp] theorem setVFlag_status (s : State) (x : RegIdx) (b : Byte) (c : Bool) : (s.setVFlag x b c).status = s.status := rfl
@[simp] theorem setVFlag_cfg (s : State) (x : RegIdx) (b : Byte) (c : Bool) : (s.setVFlag x b c).cfg = s.cfg := rfl
@[simp] theorem setVFlag_draws (s : State) (x : RegIdx) (b : Byte) (c : Bool) : (s.setVFlag x b c).draws = s.draws := rfl
@[simp] theorem setVFlag_choices (s : State) (x : RegIdx) (b : Byte) (c : Bool) : (s.setVFlag x b c).choices = s.choices := rfl

@[simp] theorem setVLogic_i (s : State) (x : RegIdx) (b : Byte) : (s.setVLogic x b).i = s.i := by
  obtain ⟨v, h⟩ := setVLogic_eq s x b
  rw [h]
@[simp] theorem setVLogic_stack (s : State) (x : RegIdx) (b : Byte) : (s.setVLogic x b).stack = s.stack := by
  obtain ⟨v, h⟩ := setVLogic_eq s x b
  rw [h]
@[simp] theorem setVLogic_dt (s : State) (x : RegIdx) (b : Byte) : (s.setVLogic x b).dt = s.dt := by
  obtain ⟨v, h⟩ := setVLogic_eq s x b
  rw [h]
@[simp] theorem setVLogic_st (s : State) (x : RegIdx) (b : Byte) : (s.setVLogic x b).st = s.st := by
  obtain ⟨v, h⟩ := setVLogic_eq s x b
  rw [h]
@[simp] theorem setVLogic_mem (s : State) (x : RegIdx) (b : Byte) : (s.setVLogic x b).mem = s.mem := by
  obtain ⟨v, h⟩ := setVLogic_eq s x b
  rw [h]
@[simp] theorem setVLogic_disp (s : State) (x : RegIdx) (b : Byte) : (s.setVLogic x b).disp = s.disp := by
  obtain ⟨v, h⟩ := setVLogic_eq s x b
  rw [h]
@[simp] theorem setVLogic_keys (s : State) (x : RegIdx) (b : Byte) : (s.setVLogic x b).keys = s.keys := by
  obtain ⟨v, h⟩ := setVLogic_eq s x b
  rw [h]
@[simp] theorem setVLogic_status (s : State) (x : RegIdx) (b : Byte) : (s.setVLogic x b).status = s.status := by
  obtain ⟨v, h⟩ := setVLogic_eq s x b
  rw [h]
@[simp] theorem setVLogic_cfg (s : State) (x : RegIdx) (b : Byte) : (s.setVLogic x b).cfg = s.cfg := by
  obtain ⟨v, h⟩ := setVLogic_eq s x b
  rw [h]
@[simp] theorem setVLogic_draws (s : State) (x : RegIdx) (b : Byte) : (s.setVLogic x b).draws = s.draws := by
  obtain ⟨v, h⟩ := setVLogic_eq s x b
  rw [h]
@[simp] theorem setVLogic_choices (s : State) (x : RegIdx) (b : Byte) : (s.setVLogic x b).choices = s.choices := by
  obtain ⟨v, h⟩ := setVLogic_eq s x b
  rw [h]

@[simp] theorem bumpI_v (s : State) (x : RegIdx) : (s.bumpI x).v = s.v := by
  rcases bumpI_eq s x with ⟨h, -⟩ | ⟨h, -⟩ <;> rw [h]
  rfl
@[simp] theorem bumpI_pc (s : State) (x : RegIdx) : (s.bumpI x).pc = s.pc := by
  rcases bumpI_eq s x with ⟨h, -⟩ | ⟨h, -⟩ <;> rw [h]
  rfl
@[simp] theorem bumpI_stack (s : State) (x : RegIdx) : (s.bumpI x).stack = s.stack := by
  rcases bumpI_eq s x with ⟨h, -⟩ | ⟨h, -⟩ <;> rw [h]
  rfl
@[simp] theorem bumpI_dt (s : State) (x : RegIdx) : (s.bumpI x).dt = s.dt := by
  rcases bumpI_eq s x with ⟨h, -⟩ | ⟨h, -⟩ <;> rw [h]
  rfl
@[simp] theorem bumpI_st (s : State) (x : RegIdx) : (s.bumpI x).st = s.st := by
  rcases bumpI_eq s x with ⟨h, -⟩ | ⟨h, -⟩ <;> rw [h]
  rfl
@[simp] theorem bumpI_mem (s : State) (x : RegIdx) : (s.bumpI x).mem = s.mem := by
  rcases bumpI_eq s x with ⟨h, -⟩ | ⟨h, -⟩ <;> rw [h]
  rfl
@[simp] theorem bumpI_disp (s : State) (x : RegIdx) : (s.bumpI x).disp = s.disp := by
  rcases bumpI_eq s x with ⟨h, -⟩ | ⟨h, -⟩ <;> rw [h]
  rfl
@[simp] theorem bumpI_keys (s : State) (x : RegIdx) : (s.bumpI x).keys = s.keys := by
  rcases bumpI_eq s x with ⟨h, -⟩ | ⟨h, -⟩ <;> rw [h]
  rfl
@[simp] theorem bumpI_status (s : State) (x : RegIdx) : (s.bumpI x).status = s.status := by
  rcases bumpI_eq s x with ⟨h, -⟩ | ⟨h, -⟩ <;> rw [h]
  rfl
@[simp] theorem bumpI_cfg (s : State) (x : RegIdx) : (s.bumpI x).cfg = s.cfg := by
  rcases bumpI_eq s x with ⟨h, -⟩ | ⟨h, -⟩ <;> rw [h]
  rfl
@[simp] theorem bumpI_draws (s : State) (x : RegIdx) : (s.bumpI x).draws = s.draws := by
  rcases bumpI_eq s x with ⟨h, -⟩ | ⟨h, -⟩ <;> rw [h]
  rfl
@[simp] theorem bumpI_choices (s : State) (x : RegIdx) : (s.bumpI x).choices = s.choices := by
  rcases bumpI_eq s x with ⟨h, -⟩ | ⟨h, -⟩ <;> rw [h]
  rfl

/-! ### Frames -/

theorem Frame.refl (s : State) (ps : List Part) (rs : List RegIdx) : Frame s s ps rs :=
  ⟨fun _ _ => rfl, fun p _ => by cases p <;> simp [Part.Same]⟩

theorem Frame.trans {s t u : State} {ps : List Part} {rs : List RegIdx} (h : Frame s t ps rs) (k : Frame t u ps rs) :
    Frame s u ps rs := by
  refine ⟨fun r hr => (k.1 r hr).trans (h.1 r hr), fun p hp => ?_⟩
  have h1 := h.2 p hp
  have h2 := k.2 p hp
  cases p <;> simp_all [Part.Same]

theorem Frame.mono {s t : State} {ps qs : List Part} {rs us : List RegIdx} (h : Frame s t ps rs) (hp : ps ⊆ qs)
    (hr : rs ⊆ us) : Frame s t qs us :=
  ⟨fun r hn => h.1 r fun hm => hn (hr hm), fun p hn => h.2 p fun hm => hn (hp hm)⟩

theorem setPc_frame (s : State) (w : Word) : Frame s (s.setPc w) [.pc] [] :=
  ⟨fun _ _ => rfl, fun p hp => by cases p <;> simp_all [Part.Same]⟩

theorem setI_frame (s : State) (w : Word) : Frame s (s.setI w) [.i] [] :=
  ⟨fun _ _ => rfl, fun p hp => by cases p <;> simp_all [Part.Same]⟩

theorem setV_frame (s : State) (x : RegIdx) (b : Byte) : Frame s (s.setV x b) [] [x] := by
  refine ⟨fun r hr => getV_setV_of_ne s b ?_, fun p _ => by cases p <;> simp [Part.Same]⟩
  simpa [eq_comm] using hr

/-- Raising changes the status alone (60_exceptions.md R134). -/
theorem raise_haltedFrom (e : HaltReason) (o : Option Word) (s : State) : HaltedFrom s (raise e o s) e o :=
  ⟨rfl, fun _ _ => rfl, fun p hp => by cases p <;> simp_all [Part.Same]⟩

end Sys2Proof.Machine
end

