-- ==== Sys2Proof/Laws/Memory.lean ====
section
/-! SUPPORT. Memory: a read after a write, a write leaves every other place alone (20_memory.md R53, R61), and every
operation keeps the canonical form. -/

namespace Sys2Proof.Machine

/-! ### Lookup -/

theorem memLookup_insert (d : Byte) (a c : Nat) (b : Byte) (m : Memory) :
    memLookup d c (memInsert a b m) = if a = c then b else memLookup d c m := by
  induction m with
  | nil => simp [memInsert, memLookup]
  | cons e m ih =>
    obtain ⟨k, x⟩ := e
    unfold memInsert
    split
    · simp [memLookup]
    · split
      · subst_vars
        by_cases h : k = c <;> simp [memLookup, h]
      · by_cases hk : k = c
        · subst hk
          simp [memLookup, *]
        · simp [memLookup, hk, ih]

theorem memLookup_filter (d : Byte) (p : Nat → Bool) (c : Nat) (m : Memory) :
    memLookup d c (m.filter fun e => p e.1) = if p c then memLookup d c m else d := by
  induction m with
  | nil => simp [memLookup]
  | cons e m ih =>
    obtain ⟨k, x⟩ := e
    rcases Bool.eq_false_or_eq_true (p k) with h | h
    · rw [List.filter_cons_of_pos (by simpa using h)]
      by_cases hk : k = c
      · subst hk
        simp [memLookup, h]
      · simp [memLookup, hk, ih]
    · rw [List.filter_cons_of_neg (by simp [h]), ih]
      by_cases hk : k = c
      · subst hk
        simp [h]
      · simp [memLookup, hk]

theorem memLookup_erase (d : Byte) (a c : Nat) (m : Memory) :
    memLookup d c (memErase a m) = if a = c then d else memLookup d c m := by
  have h := memLookup_filter d (fun k => k != a) c m
  rw [memErase, h]
  by_cases hc : a = c
  · simp [hc]
  · simp [hc, Ne.symm hc]

/-- A read after a write to the same place gives the value written; any other place reads as before. -/
theorem memRead_write (p : Params) (m : Memory) (a c : Nat) (b : Byte) :
    memRead p (memWrite p m a b) c = if a = c then b else memRead p m c := by
  unfold memRead memWrite
  split
  · rw [memLookup_erase]
    split <;> simp_all
  · rw [memLookup_insert]

/-- A sequence of bytes written at `a` reads back byte by byte, and no other place changes. -/
theorem memRead_writeList (p : Params) (bs : List Byte) (m : Memory) (a c : Nat) :
    memRead p (memWriteList p m a bs) c =
      if a ≤ c ∧ c < a + bs.length then bs.getD (c - a) 0 else memRead p m c := by
  induction bs generalizing m a with
  | nil => simp only [memWriteList, List.length_nil]; rw [if_neg (by omega)]
  | cons b bs ih =>
    rw [memWriteList, ih, memRead_write]
    simp only [List.length_cons]
    by_cases h : a = c
    · subst h
      rw [if_neg (by omega), if_pos rfl, if_pos (by omega)]
      simp
    · rw [if_neg h]
      by_cases h2 : a + 1 ≤ c ∧ c < a + 1 + bs.length
      · rw [if_pos h2, if_pos (by omega), show c - a = c - (a + 1) + 1 by omega]
        simp
      · rw [if_neg h2, if_neg (by omega)]

/-! ### The canonical form -/

theorem mem_memInsert {a : Nat} {b : Byte} {m : Memory} {e : Host.Cell} (h : e ∈ memInsert a b m) :
    e = (a, b) ∨ e ∈ m := by
  induction m with
  | nil => simpa [memInsert] using h
  | cons x m ih =>
    obtain ⟨k, c⟩ := x
    unfold memInsert at h
    split at h
    · simpa using h
    · split at h
      · simp only [List.mem_cons] at h ⊢
        tauto
      · simp only [List.mem_cons] at h ⊢
        rcases h with h | h
        · exact .inr (.inl h)
        · rcases ih h with h | h
          · exact .inl h
          · exact .inr (.inr h)

theorem memInsert_sorted (a : Nat) (b : Byte) (m : Memory) (h : (m.map Prod.fst).Pairwise (· < ·)) :
    ((memInsert a b m).map Prod.fst).Pairwise (· < ·) := by
  induction m with
  | nil => simp [memInsert]
  | cons x m ih =>
    obtain ⟨k, c⟩ := x
    simp only [List.map_cons, List.pairwise_cons] at h
    unfold memInsert
    split
    · rename_i hak
      simp only [List.map_cons, List.pairwise_cons, List.mem_cons]
      refine ⟨fun y hy => ?_, h.1, h.2⟩
      rcases hy with rfl | hy
      · exact hak
      · exact lt_trans hak (h.1 y hy)
    · split
      · subst_vars
        simpa using h
      · simp only [List.map_cons, List.pairwise_cons]
        refine ⟨fun y hy => ?_, ih h.2⟩
        obtain ⟨e, he, rfl⟩ := List.mem_map.1 hy
        rcases mem_memInsert he with rfl | he
        · simp; omega
        · exact h.1 _ (List.mem_map_of_mem he)

theorem filter_wf {p : Params} {m : Memory} (q : Host.Cell → Bool) (h : Memory.wf p m) : Memory.wf p (m.filter q) :=
  ⟨h.1.sublist ((List.filter_sublist).map _), fun c hc => h.2 c (List.mem_of_mem_filter hc)⟩

/-- A write inside the 4096 bytes keeps the canonical form. -/
theorem memWrite_wf {p : Params} {m : Memory} {a : Nat} {b : Byte} (h : Memory.wf p m) (ha : a < memSize) :
    Memory.wf p (memWrite p m a b) := by
  unfold memWrite
  split
  · exact filter_wf _ h
  · rename_i hb
    refine ⟨memInsert_sorted a b m h.1, fun c hc => ?_⟩
    rcases mem_memInsert hc with rfl | hc
    · exact ⟨ha, hb⟩
    · exact h.2 c hc

theorem memWriteList_wf {p : Params} (bs : List Byte) {m : Memory} {a : Nat} (h : Memory.wf p m)
    (ha : bs = [] ∨ a + bs.length ≤ memSize) : Memory.wf p (memWriteList p m a bs) := by
  induction bs generalizing m a with
  | nil => exact h
  | cons b bs ih =>
    have hl : a + (bs.length + 1) ≤ memSize := by simpa using ha
    exact ih (memWrite_wf h (by omega)) (.inr (by omega))

/-- The font does not read INIT_MEM. -/
theorem launchByte_withInitMem (p : Params) (init : List Byte) (a : Nat) :
    launchByte (withInitMem p init) a = if inFont p a then launchByte p a else init.getD a 0 := by
  have h : inFont (withInitMem p init) a = inFont p a := rfl
  unfold launchByte
  rw [h]
  split <;> rfl

/-- What a load leaves of memory is canonical for the new INIT_MEM too: only font bytes stay listed, and a font address
does not read INIT_MEM. -/
theorem keepFont_wf {p : Params} {m : Memory} (init : List Byte) (h : Memory.wf p m) :
    Memory.wf (withInitMem p init) (keepFont p m) := by
  refine ⟨(filter_wf _ h).1, fun c hc => ?_⟩
  have hf : inFont p c.1 = true := by simpa using List.of_mem_filter hc
  rw [launchByte_withInitMem, if_pos hf]
  exact h.2 c (List.mem_of_mem_filter hc)

theorem construct_memory_wf (p : Params) : Memory.wf p (State.construct p).mem :=
  ⟨List.Pairwise.nil, by simp [State.construct]⟩

/-! ### What the state's accesses answer -/

theorem readByte_eq_some {s : State} {a : Nat} {b : Byte} (h : s.readByte a = some b) :
    a < memSize ∧ b = s.byteAt a := by
  unfold State.readByte at h
  split at h <;> simp_all

theorem readByte_of_lt (s : State) {a : Nat} (h : a < memSize) : s.readByte a = some (s.byteAt a) := if_pos h

theorem readByte_of_ge (s : State) {a : Nat} (h : memSize ≤ a) : s.readByte a = none := if_neg (by omega)

theorem readBytes_eq_some {s : State} {a n : Nat} {bs : List Byte} (h : s.readBytes a n = some bs) :
    (n = 0 ∨ a + n ≤ memSize) ∧ bs = (List.range n).map fun k => s.byteAt (a + k) := by
  unfold State.readBytes inBounds at h
  split at h <;> simp_all

theorem readBytes_eq_none {s : State} {a n : Nat} (h : s.readBytes a n = none) : n ≠ 0 ∧ memSize < a + n := by
  unfold State.readBytes inBounds at h
  split at h <;> simp_all

theorem writeBytes_eq_some {s t : State} {a : Nat} {bs : List Byte} (h : s.writeBytes a bs = some t) :
    (bs = [] ∨ a + bs.length ≤ memSize) ∧ t = { s with mem := memWriteList s.cfg s.mem a bs } := by
  unfold State.writeBytes inBounds at h
  split at h <;> simp_all

theorem writeBytes_eq_none {s : State} {a : Nat} {bs : List Byte} (h : s.writeBytes a bs = none) :
    bs ≠ [] ∧ memSize < a + bs.length := by
  unfold State.writeBytes inBounds at h
  split at h <;> simp_all

theorem writeBytes_of_le (s : State) {a : Nat} {bs : List Byte} (h : a + bs.length ≤ memSize) :
    s.writeBytes a bs = some { s with mem := memWriteList s.cfg s.mem a bs } := by
  simp [State.writeBytes, inBounds, h]

/-- What a store leaves in memory. -/
theorem byteAt_writeBytes {s t : State} {a : Nat} {bs : List Byte} (h : s.writeBytes a bs = some t) (c : Nat) :
    t.byteAt c = if a ≤ c ∧ c < a + bs.length then bs.getD (c - a) 0 else s.byteAt c := by
  obtain ⟨-, rfl⟩ := writeBytes_eq_some h
  exact memRead_writeList s.cfg bs s.mem a c

theorem writeBytes_frame {s t : State} {a : Nat} {bs : List Byte} (h : s.writeBytes a bs = some t) :
    Frame s t [.mem] [] := by
  obtain ⟨-, rfl⟩ := writeBytes_eq_some h
  refine ⟨fun _ _ => rfl, fun p hp => ?_⟩
  cases p <;> first | exact absurd (List.mem_singleton.2 rfl) hp | rfl | (intro _; rfl)

theorem writeBytes_wf {s t : State} {a : Nat} {bs : List Byte} (h : s.writeBytes a bs = some t)
    (hm : Memory.wf s.cfg s.mem) : Memory.wf t.cfg t.mem := by
  obtain ⟨ha, rfl⟩ := writeBytes_eq_some h
  exact memWriteList_wf bs hm ha

/-- What a load leaves in memory: the image, the font as it was, INIT_MEM elsewhere (R154). -/
theorem byteAt_install (s : State) (image init : List Byte) (a : Nat) :
    (s.install (withInitMem s.cfg init) image).byteAt a =
      if loadOffset ≤ a ∧ a < loadOffset + image.length then image.getD (a - loadOffset) 0
      else if inFont s.cfg a then s.byteAt a else init.getD a 0 := by
  show memRead (withInitMem s.cfg init) (memWriteList _ (keepFont s.cfg s.mem) loadOffset image) a = _
  rw [memRead_writeList]
  congr 1
  rw [memRead, keepFont, memLookup_filter _ (inFont s.cfg), launchByte_withInitMem]
  split <;> rfl

/-- The two cases of a load. -/
theorem load_eq (s : State) (image init : List Byte) :
    loadRefused s.cfg image.length = true ∧
        s.load image init = { s with status := .halted .imageTooLarge (trunc16 loadOffset) none } ∨
      loadRefused s.cfg image.length = false ∧ s.load image init = s.install (withInitMem s.cfg init) image := by
  unfold State.load
  split <;> simp_all

/-- When a load is refused: over 3584 bytes, or over the font. -/
theorem loadRefused_iff (p : Params) (n : Nat) :
    loadRefused p n = true ↔ 3584 < n ∨ 0 < n ∧ p.fontBase < 0x200 + n ∧ 0x200 < p.fontBase + 80 := by
  unfold loadRefused loadOffset
  simp
  omega

/-- The fetch: the two bytes at PC and PC + 1, or none when PC + 1 is past the end (R82). -/
theorem fetch_eq (s : State) :
    s.fetch = if s.pc.toNat + 1 < memSize then some (composeWord (s.byteAt s.pc.toNat) (s.byteAt (s.pc.toNat + 1)))
      else none := by
  unfold State.fetch State.readByte
  split
  · rename_i h1 h2
    split at h1 <;> split at h2 <;> simp_all
  · rename_i h
    split
    · rename_i hlt
      exact absurd (if_pos hlt) (fun e => h _ _ (if_pos (by omega)) e)
    · rfl

end Sys2Proof.Machine
end

