-- ==== Sys2Proof/Laws/Draw.lean ====
section
/-! SUPPORT. Pixels: toggling one, drawing a list of places, and where a sprite's bits land (44_display.md). -/

namespace Sys2Proof.Machine

@[simp] theorem pixel_blankDisplay (c : Place) : pixel blankDisplay c = false := by
  simp [pixel, blankDisplay]

/-- Toggling one place flips that pixel and no other. -/
theorem pixel_togglePixel (d : Display) (p c : Place) : pixel (togglePixel d p) c = (pixel d c ^^ decide (p = c)) := by
  obtain ⟨px, py⟩ := p
  obtain ⟨cx, cy⟩ := c
  simp only [pixel, togglePixel, Fin.getElem_fin, Vector.getElem_set]
  by_cases hy : py.val = cy.val
  · obtain rfl := Fin.ext hy
    have hlt : cx.val < 64 := cx.isLt
    by_cases hx : px = cx
    · subst hx
      simp [hlt]
    · have : px.val ≠ cx.val := fun h => hx (Fin.ext h)
      simp [hx, Ne.symm this]
  · have : py ≠ cy := fun h => hy (congrArg _ h)
    simp [hy, this]

/-- Two displays with the same pixels are the same display. -/
theorem display_ext {d e : Display} (h : ∀ c, pixel d c = pixel e c) : d = e := by
  apply Vector.ext
  intro k hk
  apply BitVec.eq_of_getLsbD_eq
  intro j hj
  exact h (⟨j, hj⟩, ⟨k, hk⟩)

/-- Drawing distinct places flips exactly those pixels. -/
theorem pixel_drawPlaces (ps : List Place) (hp : ps.Nodup) (d : Display) (b : Bool) (c : Place) :
    pixel (drawPlaces d b ps).1 c = (pixel d c ^^ decide (c ∈ ps)) := by
  induction ps generalizing d b with
  | nil => simp [drawPlaces]
  | cons p ps ih =>
    rw [List.nodup_cons] at hp
    rw [drawPlaces, ih hp.2, pixel_togglePixel]
    by_cases h : p = c
    · subst h
      simp [hp.1]
    · simp [h, Ne.symm h]

/-- The collision flag: some drawn place was on. -/
theorem collision_drawPlaces (ps : List Place) (hp : ps.Nodup) (d : Display) (b : Bool) :
    (drawPlaces d b ps).2 = (b || ps.any (pixel d)) := by
  induction ps generalizing d b with
  | nil => simp [drawPlaces]
  | cons p ps ih =>
    rw [List.nodup_cons] at hp
    have e : ps.any (pixel (togglePixel d p)) = ps.any (pixel d) := by
      rw [Bool.eq_iff_iff, List.any_eq_true, List.any_eq_true]
      refine exists_congr fun q => and_congr_right fun hq => ?_
      have : p ≠ q := fun h => hp.1 (h ▸ hq)
      simp [pixel_togglePixel, this]
    rw [drawPlaces, ih hp.2, e]
    simp [Bool.or_assoc]

/-- The places of a sprite: a 1 bit of some row, wrapped in both axes (R120, R121). -/
theorem mem_spritePlaces {x0 y0 : Byte} {bs : List Byte} {r : Nat} {c : Place} :
    c ∈ spritePlaces x0 y0 r bs ↔
      ∃ k j, k < bs.length ∧ j < 8 ∧ (bs.getD k 0).getLsbD (7 - j) = true ∧ c = spritePlace x0 y0 (r + k) j := by
  induction bs generalizing r with
  | nil => simp [spritePlaces]
  | cons b bs ih =>
    simp only [spritePlaces, List.mem_append, ih, rowPlaces, List.mem_map, List.mem_filter, List.mem_range]
    constructor
    · rintro (⟨j, ⟨hj, hb⟩, rfl⟩ | ⟨k, j, hk, hj, hb, rfl⟩)
      · exact ⟨0, j, by simp, hj, by simpa using hb, by simp⟩
      · exact ⟨k + 1, j, by simpa using hk, hj, by simpa using hb, by congr 1; omega⟩
    · rintro ⟨k, j, hk, hj, hb, rfl⟩
      cases k with
      | zero => exact .inl ⟨j, ⟨hj, by simpa using hb⟩, by simp⟩
      | succ k => exact .inr ⟨k, j, by simpa using hk, hj, by simpa using hb, by congr 1; omega⟩

end Sys2Proof.Machine
end

