-- ==== Sys2Proof/Laws/Encoding.lean ====
section
/-! SUPPORT. The fields of a word built from fields (30_encoding.md R68), and of a word composed from bytes
(20_memory.md R58). -/

namespace Sys2Proof

theorem word_eq_of_bits {w u : Word} (h : ∀ i, i < 16 → w.getLsbD i = u.getLsbD i) : w = u :=
  BitVec.eq_of_getLsbD_eq h

@[simp] theorem fieldOp_wordNNN (op : Nibble) (nnn : Addr12) : fieldOp (wordNNN op nnn) = op := by
  apply BitVec.eq_of_getLsbD_eq
  intro i hi
  interval_cases i <;> simp only [fieldOp, wordNNN, BitVec.getLsbD_extractLsb', BitVec.getLsbD_append] <;> simp

@[simp] theorem fieldNNN_wordNNN (op : Nibble) (nnn : Addr12) : fieldNNN (wordNNN op nnn) = nnn := by
  apply BitVec.eq_of_getLsbD_eq
  intro i hi
  interval_cases i <;> simp only [fieldNNN, wordNNN, BitVec.getLsbD_extractLsb', BitVec.getLsbD_append] <;> simp

@[simp] theorem fieldOp_wordXKK (op : Nibble) (x : RegIdx) (kk : Byte) : fieldOp (wordXKK op x kk) = op := by
  apply BitVec.eq_of_getLsbD_eq
  intro i hi
  interval_cases i <;> simp only [fieldOp, wordXKK, BitVec.getLsbD_extractLsb', BitVec.getLsbD_append] <;> simp

@[simp] theorem fieldX_wordXKK (op : Nibble) (x : RegIdx) (kk : Byte) : fieldX (wordXKK op x kk) = x := by
  apply BitVec.eq_of_getLsbD_eq
  intro i hi
  interval_cases i <;> simp only [fieldX, wordXKK, BitVec.getLsbD_extractLsb', BitVec.getLsbD_append] <;> simp

@[simp] theorem fieldKK_wordXKK (op : Nibble) (x : RegIdx) (kk : Byte) : fieldKK (wordXKK op x kk) = kk := by
  apply BitVec.eq_of_getLsbD_eq
  intro i hi
  interval_cases i <;> simp only [fieldKK, wordXKK, BitVec.getLsbD_extractLsb', BitVec.getLsbD_append] <;> simp

@[simp] theorem fieldOp_wordXYN (op : Nibble) (x y : RegIdx) (n : Nibble) : fieldOp (wordXYN op x y n) = op := by
  apply BitVec.eq_of_getLsbD_eq
  intro i hi
  interval_cases i <;> simp only [fieldOp, wordXYN, BitVec.getLsbD_extractLsb', BitVec.getLsbD_append] <;> simp

@[simp] theorem fieldX_wordXYN (op : Nibble) (x y : RegIdx) (n : Nibble) : fieldX (wordXYN op x y n) = x := by
  apply BitVec.eq_of_getLsbD_eq
  intro i hi
  interval_cases i <;> simp only [fieldX, wordXYN, BitVec.getLsbD_extractLsb', BitVec.getLsbD_append] <;> simp

@[simp] theorem fieldY_wordXYN (op : Nibble) (x y : RegIdx) (n : Nibble) : fieldY (wordXYN op x y n) = y := by
  apply BitVec.eq_of_getLsbD_eq
  intro i hi
  interval_cases i <;> simp only [fieldY, wordXYN, BitVec.getLsbD_extractLsb', BitVec.getLsbD_append] <;> simp

@[simp] theorem fieldN_wordXYN (op : Nibble) (x y : RegIdx) (n : Nibble) : fieldN (wordXYN op x y n) = n := by
  apply BitVec.eq_of_getLsbD_eq
  intro i hi
  interval_cases i <;> simp only [fieldN, wordXYN, BitVec.getLsbD_extractLsb', BitVec.getLsbD_append] <;> simp

/-- A word is its major opcode and its nnn field. -/
theorem wordNNN_fields (w : Word) : wordNNN (fieldOp w) (fieldNNN w) = w := by
  apply word_eq_of_bits
  intro i hi
  interval_cases i <;> simp only [fieldOp, fieldNNN, wordNNN, BitVec.getLsbD_extractLsb', BitVec.getLsbD_append] <;> simp

/-- A word is its major opcode, its x field and its low byte. -/
theorem wordXKK_fields (w : Word) : wordXKK (fieldOp w) (fieldX w) (fieldKK w) = w := by
  apply word_eq_of_bits
  intro i hi
  interval_cases i <;> simp only [fieldOp, fieldX, fieldKK, wordXKK, BitVec.getLsbD_extractLsb', BitVec.getLsbD_append] <;> simp

/-- A word is its four nibbles. -/
theorem wordXYN_fields (w : Word) : wordXYN (fieldOp w) (fieldX w) (fieldY w) (fieldN w) = w := by
  apply word_eq_of_bits
  intro i hi
  interval_cases i <;> simp only [fieldOp, fieldX, fieldY, fieldN, wordXYN, BitVec.getLsbD_extractLsb', BitVec.getLsbD_append] <;> simp

@[simp] theorem hiByte_composeWord (hi lo : Byte) : hiByte (composeWord hi lo) = hi := by
  apply BitVec.eq_of_getLsbD_eq
  intro i hi
  interval_cases i <;> simp only [hiByte, composeWord, BitVec.getLsbD_extractLsb', BitVec.getLsbD_append] <;> simp

@[simp] theorem loByte_composeWord (hi lo : Byte) : loByte (composeWord hi lo) = lo := by
  apply BitVec.eq_of_getLsbD_eq
  intro i hi
  interval_cases i <;> simp only [loByte, composeWord, BitVec.getLsbD_extractLsb', BitVec.getLsbD_append] <;> simp

@[simp] theorem composeWord_bytes (w : Word) : composeWord (hiByte w) (loByte w) = w := by
  apply word_eq_of_bits
  intro i hi
  interval_cases i <;> simp only [hiByte, loByte, composeWord, BitVec.getLsbD_extractLsb', BitVec.getLsbD_append] <;> simp

@[simp] theorem fitField_toNat {n : Nat} (b : BitVec n) : Machine.fitField n b.toNat = some b := by
  simp [Machine.fitField, b.isLt]

/-! ### Decode, family by family -/

theorem fitField_of_ge {width n : Nat} (h : 2 ^ width ≤ n) : Machine.fitField width n = none :=
  if_neg (Nat.not_lt.2 h)

/-! What each form of line answers where an operand does not fit: none. -/

theorem lineX_of_ge (mk : RegIdx → Instr) {x : Nat} (h : 16 ≤ x) : Machine.lineX mk x = none := by
  rw [Machine.lineX, fitField_of_ge h]
  rfl

theorem lineXKK_of_ge (mk : RegIdx → Byte → Instr) {x kk : Nat} (h : 16 ≤ x ∨ 256 ≤ kk) :
    Machine.lineXKK mk x kk = none := by
  unfold Machine.lineXKK
  rcases h with h | h
  · rw [fitField_of_ge (width := 4) h]
  · rw [fitField_of_ge (width := 8) h]
    split <;> simp_all

theorem lineXY_of_ge (mk : RegIdx → RegIdx → Instr) {x y : Nat} (h : 16 ≤ x ∨ 16 ≤ y) :
    Machine.lineXY mk x y = none := by
  unfold Machine.lineXY
  rcases h with h | h <;> rw [fitField_of_ge (width := 4) h]
  split <;> simp_all

theorem lineXYN_of_ge (mk : RegIdx → RegIdx → Nibble → Instr) {x y n : Nat} (h : 16 ≤ x ∨ 16 ≤ y ∨ 16 ≤ n) :
    Machine.lineXYN mk x y n = none := by
  unfold Machine.lineXYN
  rcases h with h | h | h <;> rw [fitField_of_ge (width := 4) h]
  all_goals split <;> simp_all

/-- A nibble is one of sixteen. -/
theorem nibble_cases (o : Nibble) :
    o = 0x0 ∨ o = 0x1 ∨ o = 0x2 ∨ o = 0x3 ∨ o = 0x4 ∨ o = 0x5 ∨ o = 0x6 ∨ o = 0x7 ∨ o = 0x8 ∨ o = 0x9 ∨ o = 0xA ∨
      o = 0xB ∨ o = 0xC ∨ o = 0xD ∨ o = 0xE ∨ o = 0xF := by
  revert o
  decide

@[simp] theorem fieldX_wordNNN (op : Nibble) (nnn : Addr12) : fieldX (wordNNN op nnn) = nnn.extractLsb' 8 4 := by
  apply BitVec.eq_of_getLsbD_eq
  intro i hi
  interval_cases i <;> simp only [fieldX, wordNNN, BitVec.getLsbD_extractLsb', BitVec.getLsbD_append] <;> simp

@[simp] theorem fieldN_wordXKK (op : Nibble) (x : RegIdx) (kk : Byte) :
    fieldN (wordXKK op x kk) = kk.extractLsb' 0 4 := by
  apply BitVec.eq_of_getLsbD_eq
  intro i hi
  interval_cases i <;> simp only [fieldN, wordXKK, BitVec.getLsbD_extractLsb', BitVec.getLsbD_append] <;> simp

theorem decode_of_op0 (w : Word) (h : fieldOp w = 0x0) : decode w = .ok (decodeFamily0 w) := by
  rw [decode, h]
  rfl

theorem decode_of_op1 (w : Word) (h : fieldOp w = 0x1) : decode w = .ok (.jp (fieldNNN w)) := by
  rw [decode, h]
  rfl

theorem decode_of_op2 (w : Word) (h : fieldOp w = 0x2) : decode w = .ok (.call (fieldNNN w)) := by
  rw [decode, h]
  rfl

theorem decode_of_op3 (w : Word) (h : fieldOp w = 0x3) : decode w = .ok (.seImm (fieldX w) (fieldKK w)) := by
  rw [decode, h]
  rfl

theorem decode_of_op4 (w : Word) (h : fieldOp w = 0x4) : decode w = .ok (.sneImm (fieldX w) (fieldKK w)) := by
  rw [decode, h]
  rfl

theorem decode_of_op5 (w : Word) (h : fieldOp w = 0x5) : decode w = .ok (.seReg (fieldX w) (fieldY w) (fieldN w)) := by
  rw [decode, h]
  rfl

theorem decode_of_op6 (w : Word) (h : fieldOp w = 0x6) : decode w = .ok (.ldImm (fieldX w) (fieldKK w)) := by
  rw [decode, h]
  rfl

theorem decode_of_op7 (w : Word) (h : fieldOp w = 0x7) : decode w = .ok (.addImm (fieldX w) (fieldKK w)) := by
  rw [decode, h]
  rfl

theorem decode_of_op8 (w : Word) (h : fieldOp w = 0x8) : decode w = decodeFamily8 w := by
  rw [decode, h]
  rfl

theorem decode_of_op9 (w : Word) (h : fieldOp w = 0x9) : decode w = .ok (.sneReg (fieldX w) (fieldY w) (fieldN w)) := by
  rw [decode, h]
  rfl

theorem decode_of_opA (w : Word) (h : fieldOp w = 0xA) : decode w = .ok (.ldI (fieldNNN w)) := by
  rw [decode, h]
  rfl

theorem decode_of_opB (w : Word) (h : fieldOp w = 0xB) : decode w = .ok (.jpV0 (fieldNNN w)) := by
  rw [decode, h]
  rfl

theorem decode_of_opC (w : Word) (h : fieldOp w = 0xC) : decode w = .ok (.rnd (fieldX w) (fieldKK w)) := by
  rw [decode, h]
  rfl

theorem decode_of_opD (w : Word) (h : fieldOp w = 0xD) : decode w = .ok (.drw (fieldX w) (fieldY w) (fieldN w)) := by
  rw [decode, h]
  rfl

theorem decode_of_opE (w : Word) (h : fieldOp w = 0xE) : decode w = decodeFamilyE w := by
  rw [decode, h]
  rfl

theorem decode_of_opF (w : Word) (h : fieldOp w = 0xF) : decode w = decodeFamilyF w := by
  rw [decode, h]
  rfl

end Sys2Proof
end

