-- ==== Sys2Proof/Laws/Ops.lean ====
section
/-! SUPPORT. What each shared operation can answer: the stack, the operand forms, the pressed keys, the flag writes, the
frames of the operations. -/

namespace Sys2Proof.Machine

/-! ### Truncation -/

theorem trunc8_toNat (n : Nat) : (trunc8 n).toNat = n % 256 := by
  unfold trunc8
  rw [BitVec.toNat_ofNat]

theorem trunc16_toNat (n : Nat) : (trunc16 n).toNat = n % 65536 := by
  unfold trunc16
  rw [BitVec.toNat_ofNat]

theorem trunc16_toNat_of_lt {n : Nat} (h : n < 65536) : (trunc16 n).toNat = n := by
  rw [trunc16_toNat]
  omega

theorem setWidth_addr12_toNat (n : Addr12) : (n.setWidth 16).toNat = n.toNat := by
  rw [BitVec.toNat_setWidth]
  have := n.isLt
  omega

/-! ### The return stack (R38, R39) -/

theorem push_of_lt (s : State) (a : Word) (h : s.stack.length < 16) :
    s.push a = some { s with stack := s.stack ++ [a] } := if_pos h

theorem push_of_ge (s : State) (a : Word) (h : 16 ≤ s.stack.length) : s.push a = none := if_neg (Nat.not_lt.2 h)

theorem pop_of_append (s : State) {older : List Word} {a : Word} (h : s.stack = older ++ [a]) :
    s.pop = some (a, { s with stack := older }) := by
  simp [State.pop, h]

theorem pop_of_nil (s : State) (h : s.stack = []) : s.pop = none := by
  simp [State.pop, h]

/-! ### Fetch and advance -/

theorem fetch_eq_none (s : State) (h : 0x0FFF ≤ s.pc.toNat) : s.fetch = none := by
  rw [fetch_eq, if_neg (by unfold memSize; omega)]

theorem advanceBy_frame (s : State) (n : Nat) : Frame s (s.advanceBy n) [.pc] [] := setPc_frame _ _

/-- Advancing after a change adds PC to what the change may touch. -/
theorem Frame.advanceBy {s t : State} {ps : List Part} {rs : List RegIdx} (h : Frame s t ps rs) (n : Nat) :
    Frame s (t.advanceBy n) (.pc :: ps) rs :=
  (h.mono (by simp) (by simp)).trans ((advanceBy_frame t n).mono (by simp) (by simp))

/-- A skip: PC and nothing else (R88). -/
theorem skipIf_pc {s : State} {c : Bool} {p : Prop} [Decidable p] (h : c = true ↔ p) :
    PcPlus s (s.skipIf c) (if p then 4 else 2) := by
  by_cases hp : p
  · rw [if_pos hp, h.2 hp]
    rfl
  · have hc : c = false := by
      rw [← h] at hp
      simpa using hp
    rw [if_neg hp, hc]
    rfl

/-! ### Flag writes (R29, R30) -/

theorem setVFlag_flag (s : State) (x : RegIdx) (b : Byte) (c : Bool) :
    (s.setVFlag x b c).getV 0xF = if c then 1 else 0 := by
  simp [getV_setVFlag, vf, flagByte]

theorem setVFlag_result (s : State) {x : RegIdx} (b : Byte) (c : Bool) (h : x ≠ 0xF) :
    (s.setVFlag x b c).getV x = b := by
  simp only [getV_setVFlag, vf]
  rw [if_neg (fun e => h e.symm)]
  simp

/-! ### Register blocks (R118, R119) -/

theorem regsUpTo_length (s : State) (x : RegIdx) : (s.regsUpTo x).length = x.toNat + 1 := by
  have := x.isLt
  simp [State.regsUpTo]
  omega

theorem regsUpTo_getD (s : State) {x k : RegIdx} (h : k ≤ x) : (s.regsUpTo x).getD k.toNat 0 = s.getV k := by
  have := x.isLt
  have hk : k.toNat ≤ x.toNat := BitVec.le_def.1 h
  rw [List.getD_eq_getElem _ _ (by rw [regsUpTo_length]; omega)]
  simp [State.regsUpTo, State.getV]

theorem mem_regsTo (x r : RegIdx) : r ∈ regsTo x ↔ r ≤ x := by
  simp only [regsTo, List.mem_map, List.mem_range, BitVec.le_def]
  constructor
  · rintro ⟨k, hk, rfl⟩
    have := x.isLt
    simp
    omega
  · intro h
    exact ⟨r.toNat, by omega, by simp⟩

theorem bumpI_i (s : State) (x : RegIdx) :
    (s.bumpI x).i = if s.cfg.ldstI = .increment then trunc16 (s.i.toNat + x.toNat + 1) else s.i := by
  unfold State.bumpI
  split <;> rename_i h <;> simp [h]

theorem bumpI_frame (s : State) (x : RegIdx) : Frame s (s.bumpI x) [.i] [] := by
  unfold State.bumpI
  split
  · exact Frame.refl ..
  · exact setI_frame ..

theorem setRegsFrom0_same (s : State) (bs : List Byte) (p : Part) : p.Same s (s.setRegsFrom0 bs) := by
  cases p <;> simp [Part.Same, State.byteAt, State.isPressed]

theorem sameBytesOutside_writeBytes {s t : State} {a : Nat} {bs : List Byte} (h : s.writeBytes a bs = some t) :
    SameBytesOutside s t a bs.length := by
  intro b hb
  rw [byteAt_writeBytes h, if_neg (by omega)]

theorem readBytes_of_le (s : State) {a n : Nat} (h : n = 0 ∨ a + n ≤ 4096) :
    s.readBytes a n = some ((List.range n).map fun k => s.byteAt (a + k)) := by
  unfold State.readBytes inBounds
  rw [if_pos]
  simp
  exact h

/-! ### Drawing and timers -/

theorem setDisp_frame (s : State) (d : Display) : Frame s { s with disp := d } [.disp] [] := by
  refine ⟨fun _ _ => rfl, fun p hp => ?_⟩
  cases p <;> first | exact absurd (List.mem_singleton.2 rfl) hp | rfl | (intro _; rfl)

theorem drawSprite_frame (x0 y0 : Byte) (bs : List Byte) (s : State) :
    Frame s (drawSprite x0 y0 bs s) [.disp] [vf] :=
  ((setDisp_frame s _).mono (by simp) (by simp)).trans ((setV_frame _ vf _).mono (by simp) (by simp))

theorem tickTimer_toNat (b : Byte) : (tickTimer b).toNat = b.toNat - 1 := by
  unfold tickTimer
  split
  · subst_vars
    rfl
  · rename_i h
    have h0 : b.toNat ≠ 0 := fun e => h (BitVec.eq_of_toNat_eq (by simpa using e))
    have := b.isLt
    rw [BitVec.toNat_sub]
    simp
    omega

/-! ### Keys (R44, R81, R129) -/

theorem mem_pressedKeys (s : State) (k : Key) : k ∈ s.pressedKeys ↔ s.isPressed k = true := by
  unfold State.pressedKeys
  rw [List.mem_filter, List.mem_map]
  exact ⟨fun h => h.2, fun h => ⟨⟨k.toNat, by simpa using k.isLt, by simp⟩, h⟩⟩

theorem pressedKeys_sorted (s : State) : s.pressedKeys.Pairwise (fun a b => a.toNat ≤ b.toNat) := by
  unfold State.pressedKeys
  apply List.Pairwise.filter
  decide

/-- The key that ends a wait is one of those pressed. -/
theorem chooseKey_mem (s : State) (k : Key) (ks : List Key) : (s.chooseKey k ks).1 ∈ k :: ks := by
  unfold State.chooseKey
  split
  · simp
  · simp
  · rw [List.getD_eq_getElem _ _ (Nat.mod_lt _ (by simp))]
    exact List.getElem_mem _

theorem keyOperand_of_ok (s : State) (x : RegIdx) {k : Key} (hk : k.toNat = (s.getV x).toNat % 16)
    (h : (s.getV x).toNat ≤ 15 ∨ s.cfg.keyIndex = .lowNibble) : s.keyOperand x = some k := by
  have e : (s.getV x).setWidth 4 = k := by
    apply BitVec.eq_of_toNat_eq
    simp [hk]
  unfold State.keyOperand
  split
  · rename_i hm
    rw [if_neg, e]
    rcases h with h | h
    · omega
    · rw [hm] at h
      cases h
  · rw [e]

theorem keyOperand_of_halt (s : State) (x : RegIdx) (h : 15 < (s.getV x).toNat) (hm : s.cfg.keyIndex = .halt) :
    s.keyOperand x = none := by
  unfold State.keyOperand
  rw [hm]
  exact if_pos h

end Sys2Proof.Machine
end

