-- ==== Sys2Proof/Laws/PerInstr.lean ====
section
/-! SUPPORT. Per instruction: the encoder's word carries the match and mask that spec/opcode_table.json gives its
row. -/

namespace Sys2Proof.Laws.TableEncoding

/-- The row's "mask". -/
def tableMask : Instr → Word
  | .cls | .ret => 0xFFFF
  | .sys _ | .jp _ | .call _ | .seImm _ _ | .sneImm _ _ | .seReg _ _ _ | .ldImm _ _ | .addImm _ _ | .sneReg _ _ _
  | .ldI _ | .jpV0 _ | .rnd _ _ | .drw _ _ _ => 0xF000
  | .ldReg _ _ | .orReg _ _ | .andReg _ _ | .xorReg _ _ | .addReg _ _ | .sub _ _ | .shr _ _ | .subn _ _ | .shl _ _ =>
    0xF00F
  | .skp _ | .sknp _ | .ldVxDt _ | .ldVxK _ | .ldDtVx _ | .ldStVx _ | .addIVx _ | .ldFVx _ | .ldBVx _ | .ldMemVx _
  | .ldVxMem _ => 0xF0FF

/-- The row's "match". -/
def tableMatch : Instr → Word
  | .sys _ => 0x0000 | .cls => 0x00E0 | .ret => 0x00EE | .jp _ => 0x1000 | .call _ => 0x2000 | .seImm _ _ => 0x3000
  | .sneImm _ _ => 0x4000 | .seReg _ _ _ => 0x5000 | .ldImm _ _ => 0x6000 | .addImm _ _ => 0x7000
  | .ldReg _ _ => 0x8000 | .orReg _ _ => 0x8001 | .andReg _ _ => 0x8002 | .xorReg _ _ => 0x8003
  | .addReg _ _ => 0x8004 | .sub _ _ => 0x8005 | .shr _ _ => 0x8006 | .subn _ _ => 0x8007 | .shl _ _ => 0x800E
  | .sneReg _ _ _ => 0x9000 | .ldI _ => 0xA000 | .jpV0 _ => 0xB000 | .rnd _ _ => 0xC000 | .drw _ _ _ => 0xD000
  | .skp _ => 0xE09E | .sknp _ => 0xE0A1 | .ldVxDt _ => 0xF007 | .ldVxK _ => 0xF00A | .ldDtVx _ => 0xF015
  | .ldStVx _ => 0xF018 | .addIVx _ => 0xF01E | .ldFVx _ => 0xF029 | .ldBVx _ => 0xF033 | .ldMemVx _ => 0xF055
  | .ldVxMem _ => 0xF065

/-- The word of the instruction, under its row's mask, is its row's match. -/
def Statement (i : Instr) : Prop := encode i &&& tableMask i = tableMatch i

theorem mask_wordNNN (op : Nibble) (nnn : Addr12) : wordNNN op nnn &&& 0xF000 = wordNNN op 0 := by
  apply word_eq_of_bits
  intro i hi
  interval_cases i <;> simp only [wordNNN, BitVec.getLsbD_and, BitVec.getLsbD_append] <;> simp

theorem mask_wordXKK_op (op : Nibble) (x : RegIdx) (kk : Byte) : wordXKK op x kk &&& 0xF000 = wordXKK op 0 0 := by
  apply word_eq_of_bits
  intro i hi
  interval_cases i <;> simp only [wordXKK, BitVec.getLsbD_and, BitVec.getLsbD_append] <;> simp

theorem mask_wordXKK (op : Nibble) (x : RegIdx) (kk : Byte) : wordXKK op x kk &&& 0xF0FF = wordXKK op 0 kk := by
  apply word_eq_of_bits
  intro i hi
  interval_cases i <;> simp only [wordXKK, BitVec.getLsbD_and, BitVec.getLsbD_append] <;> simp

theorem mask_wordXYN_op (op : Nibble) (x y : RegIdx) (n : Nibble) :
    wordXYN op x y n &&& 0xF000 = wordXYN op 0 0 0 := by
  apply word_eq_of_bits
  intro i hi
  interval_cases i <;> simp only [wordXYN, BitVec.getLsbD_and, BitVec.getLsbD_append] <;> simp

theorem mask_wordXYN (op : Nibble) (x y : RegIdx) (n : Nibble) : wordXYN op x y n &&& 0xF00F = wordXYN op 0 0 n := by
  apply word_eq_of_bits
  intro i hi
  interval_cases i <;> simp only [wordXYN, BitVec.getLsbD_and, BitVec.getLsbD_append] <;> simp

theorem sys (nnn : Addr12) : Statement (.sys nnn) := mask_wordNNN _ _
theorem cls : Statement .cls := rfl
theorem ret : Statement .ret := rfl
theorem jp (nnn : Addr12) : Statement (.jp nnn) := mask_wordNNN _ _
theorem call (nnn : Addr12) : Statement (.call nnn) := mask_wordNNN _ _
theorem seImm (x : RegIdx) (kk : Byte) : Statement (.seImm x kk) := mask_wordXKK_op _ _ _
theorem sneImm (x : RegIdx) (kk : Byte) : Statement (.sneImm x kk) := mask_wordXKK_op _ _ _
theorem seReg (x y : RegIdx) (ign : Nibble) : Statement (.seReg x y ign) := mask_wordXYN_op _ _ _ _
theorem ldImm (x : RegIdx) (kk : Byte) : Statement (.ldImm x kk) := mask_wordXKK_op _ _ _
theorem addImm (x : RegIdx) (kk : Byte) : Statement (.addImm x kk) := mask_wordXKK_op _ _ _
theorem ldReg (x y : RegIdx) : Statement (.ldReg x y) := mask_wordXYN _ _ _ _
theorem orReg (x y : RegIdx) : Statement (.orReg x y) := mask_wordXYN _ _ _ _
theorem andReg (x y : RegIdx) : Statement (.andReg x y) := mask_wordXYN _ _ _ _
theorem xorReg (x y : RegIdx) : Statement (.xorReg x y) := mask_wordXYN _ _ _ _
theorem addReg (x y : RegIdx) : Statement (.addReg x y) := mask_wordXYN _ _ _ _
theorem sub (x y : RegIdx) : Statement (.sub x y) := mask_wordXYN _ _ _ _
theorem shr (x y : RegIdx) : Statement (.shr x y) := mask_wordXYN _ _ _ _
theorem subn (x y : RegIdx) : Statement (.subn x y) := mask_wordXYN _ _ _ _
theorem shl (x y : RegIdx) : Statement (.shl x y) := mask_wordXYN _ _ _ _
theorem sneReg (x y : RegIdx) (ign : Nibble) : Statement (.sneReg x y ign) := mask_wordXYN_op _ _ _ _
theorem ldI (nnn : Addr12) : Statement (.ldI nnn) := mask_wordNNN _ _
theorem jpV0 (nnn : Addr12) : Statement (.jpV0 nnn) := mask_wordNNN _ _
theorem rnd (x : RegIdx) (kk : Byte) : Statement (.rnd x kk) := mask_wordXKK_op _ _ _
theorem drw (x y : RegIdx) (n : Nibble) : Statement (.drw x y n) := mask_wordXYN_op _ _ _ _
theorem skp (x : RegIdx) : Statement (.skp x) := mask_wordXKK _ _ _
theorem sknp (x : RegIdx) : Statement (.sknp x) := mask_wordXKK _ _ _
theorem ldVxDt (x : RegIdx) : Statement (.ldVxDt x) := mask_wordXKK _ _ _
theorem ldVxK (x : RegIdx) : Statement (.ldVxK x) := mask_wordXKK _ _ _
theorem ldDtVx (x : RegIdx) : Statement (.ldDtVx x) := mask_wordXKK _ _ _
theorem ldStVx (x : RegIdx) : Statement (.ldStVx x) := mask_wordXKK _ _ _
theorem addIVx (x : RegIdx) : Statement (.addIVx x) := mask_wordXKK _ _ _
theorem ldFVx (x : RegIdx) : Statement (.ldFVx x) := mask_wordXKK _ _ _
theorem ldBVx (x : RegIdx) : Statement (.ldBVx x) := mask_wordXKK _ _ _
theorem ldMemVx (x : RegIdx) : Statement (.ldMemVx x) := mask_wordXKK _ _ _
theorem ldVxMem (x : RegIdx) : Statement (.ldVxMem x) := mask_wordXKK _ _ _

end Sys2Proof.Laws.TableEncoding
end

