-- ==== Sys2Proof/Tests/Slice0.lean ====
section
/-! SUPPORT. Tests: each expected result is from the spec's encodings (30_encoding.md) or from its test vectors
(95_test_vectors.md, cited by id). Then one witness per hypothesis of a statement in Certificates/Slice0. -/

namespace Sys2Proof.Tests

open Sys2Proof Sys2Proof.Machine

/-! ### Builders of small states -/

/-- The state after the answer, or the one before when there is none. -/
def stateOf (s : State) : Result → State
  | .next t => t
  | .fault _ => s
  | .refused _ => s

/-- The state after one cycle. -/
def afterCycle (s : State) : State := stateOf s (step s)

/-- The state after one cycle that fetches the word `w` at PC. -/
def after (w : Nat) (s : State) : State := afterCycle (s.withFetchWord 16 w)

/-- The state with other parameters. -/
def under (f : Params → Params) (s : State) : State := { s with cfg := f s.cfg }

/-- The state with bytes at an address. -/
def withBytes (a : Nat) (bs : List Byte) (s : State) : State := { s with mem := memWriteList s.cfg s.mem a bs }

/-- The state with one pixel on. -/
def withPixel (c : Place) (s : State) : State := { s with disp := togglePixel s.disp c }

def withStack (st : List Word) (s : State) : State := { s with stack := st }

def withTimers (dt st : Byte) (s : State) : State := { s with dt := dt, st := st }

def withStatus (x : Status) (s : State) : State := { s with status := x }

/-- The columns that are on in a row of the display. -/
def onIn (s : State) (row : Fin 32) : List Nat :=
  ((List.range 64).filter fun c => s.disp[row].getLsbD c)

def rs : State := State.reset

/-! ### WellFormed: the ill-formed terms are refused -/

theorem test_wf_refuses_sys_cls_word : (Instr.sys 0x0E0).wellFormed = false := by decide
theorem test_wf_refuses_sys_ret_word : (Instr.sys 0x0EE).wellFormed = false := by decide
theorem test_wf_accepts_the_neighbours :
    (Instr.sys 0x0E1).wellFormed = true ∧ (Instr.sys 0x0EF).wellFormed = true ∧ Instr.cls.wellFormed = true := by decide

/-! ### Decoding: words written bit by bit from the patterns of R70 -/

theorem test_decode_sys : decode 0b0000000100100011 = .ok (.sys 0x123) := by decide
theorem test_decode_cls : decode 0b0000000011100000 = .ok .cls := by decide
theorem test_decode_ret : decode 0b0000000011101110 = .ok .ret := by decide
theorem test_decode_jp : decode 0b0001001000110100 = .ok (.jp 0x234) := by decide
theorem test_decode_call : decode 0b0010001100000000 = .ok (.call 0x300) := by decide
theorem test_decode_seImm : decode 0b0011001101000010 = .ok (.seImm 0x3 0x42) := by decide
theorem test_decode_sneImm : decode 0b0100001101000010 = .ok (.sneImm 0x3 0x42) := by decide
theorem test_decode_seReg : decode 0b0101000100100001 = .ok (.seReg 0x1 0x2 0x1) := by decide
theorem test_decode_ldImm : decode 0b0110101001000010 = .ok (.ldImm 0xA 0x42) := by decide
theorem test_decode_addImm : decode 0b0111001000000001 = .ok (.addImm 0x2 0x01) := by decide
theorem test_decode_ldReg : decode 0b1000000000010000 = .ok (.ldReg 0x0 0x1) := by decide
theorem test_decode_orReg : decode 0b1000000000010001 = .ok (.orReg 0x0 0x1) := by decide
theorem test_decode_andReg : decode 0b1000000000010010 = .ok (.andReg 0x0 0x1) := by decide
theorem test_decode_xorReg : decode 0b1000010101010011 = .ok (.xorReg 0x5 0x5) := by decide
theorem test_decode_addReg : decode 0b1000111100010100 = .ok (.addReg 0xF 0x1) := by decide
theorem test_decode_sub : decode 0b1000101010110101 = .ok (.sub 0xA 0xB) := by decide
theorem test_decode_shr : decode 0b1000000000010110 = .ok (.shr 0x0 0x1) := by decide
theorem test_decode_subn : decode 0b1000000000010111 = .ok (.subn 0x0 0x1) := by decide
theorem test_decode_shl : decode 0b1000000000011110 = .ok (.shl 0x0 0x1) := by decide
theorem test_decode_sneReg : decode 0b1001000100100000 = .ok (.sneReg 0x1 0x2 0x0) := by decide
theorem test_decode_ldI : decode 0b1010000100100011 = .ok (.ldI 0x123) := by decide
theorem test_decode_jpV0 : decode 0b1011001100000000 = .ok (.jpV0 0x300) := by decide
theorem test_decode_rnd : decode 0b1100001111111111 = .ok (.rnd 0x3 0xFF) := by decide
theorem test_decode_drw : decode 0b1101000000010101 = .ok (.drw 0x0 0x1 0x5) := by decide
theorem test_decode_skp : decode 0b1110000110011110 = .ok (.skp 0x1) := by decide
theorem test_decode_sknp : decode 0b1110000110100001 = .ok (.sknp 0x1) := by decide
theorem test_decode_ldVxDt : decode 0b1111001100000111 = .ok (.ldVxDt 0x3) := by decide
theorem test_decode_ldVxK : decode 0b1111001100001010 = .ok (.ldVxK 0x3) := by decide
theorem test_decode_ldDtVx : decode 0b1111001100010101 = .ok (.ldDtVx 0x3) := by decide
theorem test_decode_ldStVx : decode 0b1111001100011000 = .ok (.ldStVx 0x3) := by decide
theorem test_decode_addIVx : decode 0b1111001100011110 = .ok (.addIVx 0x3) := by decide
theorem test_decode_ldFVx : decode 0b1111010100101001 = .ok (.ldFVx 0x5) := by decide
theorem test_decode_ldBVx : decode 0b1111000000110011 = .ok (.ldBVx 0x0) := by decide
theorem test_decode_ldMemVx : decode 0b1111001001010101 = .ok (.ldMemVx 0x2) := by decide
theorem test_decode_ldVxMem : decode 0b1111001001100101 = .ok (.ldVxMem 0x2) := by decide
theorem test_decode_refuses_by_family :
    decode 0x8008 = .error (.unknownArith 0x8008) ∧ decode 0xE000 = .error (.unknownKeyTest 0xE000) ∧
      decode 0xF130 = .error (.unknownMisc 0xF130) ∧ decodeBytes [0x60] = .error .truncated := by decide
theorem test_decode_table_word : decodeTableWord 16 0x600A = some (.ldImm 0x0 0x0A) := by decide

/-! ### The assembler's notation (R76) -/

theorem test_line_text_ld : lineText .ld [.v 0, .num 0xA] = "LD V0, 0xA" := by decide
theorem test_line_text_drw : lineText .drw [.v 1, .v 2, .num 5] = "DRW V1, V2, 0x5" := by decide
theorem test_assemble_p7 : assemble .shr [.v 0xA, .v 0] = some 0x8A06 ∧ assemble .ld [.st, .v 0xA] = some 0xFA18 := by
  decide

theorem test_assemble_refuses_v16 :
    assemble .skp [.v 0xF] = some 0xEF9E ∧ assemble .skp [.v 0x10] = none ∧ assemble .ld [.v 0x10, .num 1] = none ∧
      assemble .drw [.v 1, .v 0x10, .num 5] = none := by decide

/-! ### Cycle, fetch and decode (vectors V1 to V11, S7) -/

theorem test_v1_last_fetch : (after 0x6001 (rs.setPc 0xFFE)).getV 0 = 1 ∧ (after 0x6001 (rs.setPc 0xFFE)).pc = 0x1000 := by
  decide
theorem test_v2_fetch_past_the_end : (afterCycle (rs.setPc 0x1000)).status = .halted .outOfBounds 0x1000 none := by decide
theorem test_v3_second_byte_past_the_end :
    (afterCycle (rs.setPc 0xFFF)).status = .halted .outOfBounds 0xFFF none := by decide
theorem test_v4_unknown : (after 0x8008 rs).status = .halted .unknownOpcode 0x200 0x8008#16 := by decide
theorem test_v10_halted_cycle :
    afterCycle (withStatus (.halted .stackUnderflow 0x210 (some 0x00EE)) rs) =
      withStatus (.halted .stackUnderflow 0x210 (some 0x00EE)) rs := by decide
theorem test_v11_odd_pc : (after 0x6A42 (rs.setPc 0x201)).getV 0xA = 0x42 ∧ (after 0x6A42 (rs.setPc 0x201)).pc = 0x203 := by
  decide
theorem test_s7_unknown_changes_nothing :
    after 0xFFFF rs = withStatus (.halted .unknownOpcode 0x200 (some 0xFFFF)) (rs.withFetchWord 16 0xFFFF) := by decide

/-! ### Control flow (vectors C1 to C21) -/

theorem test_c1_sys_nop : (after 0x0123 rs).pc = 0x202 ∧ (after 0x0123 rs).status = .running := by decide
theorem test_c1_sys_halt :
    (after 0x0123 (under (fun p => { p with sys := .halt }) rs)).status = .halted .unknownOpcode 0x200 (some 0x0123) := by
  decide
theorem test_c3_ret_underflow :
    (after 0x00EE (rs.setPc 0x210)).status = .halted .stackUnderflow 0x210 (some 0x00EE) ∧
      (after 0x00EE (rs.setPc 0x210)).pc = 0x210 := by decide
theorem test_c4_ret :
    (after 0x00EE (withStack [0x202] (rs.setPc 0x300))).pc = 0x202 ∧
      (after 0x00EE (withStack [0x202] (rs.setPc 0x300))).stack = [] := by decide
theorem test_c5_jp : (after 0x1234 rs).pc = 0x234 := by decide
theorem test_c6_jp_to_the_end : (afterCycle (after 0x1FFF rs)).status = .halted .outOfBounds 0xFFF none := by decide
theorem test_c10_call_at_the_end :
    (after 0x2400 (rs.setPc 0xFFE)).stack = [0x1000] ∧ (after 0x2400 (rs.setPc 0xFFE)).pc = 0x400 := by decide
theorem test_c9_call_overflow :
    (after 0x2300 (withStack (List.replicate 16 0x202) rs)).status = .halted .stackOverflow 0x200 (some 0x2300) := by
  decide
theorem test_c11_se_taken : (after 0x3342 ((rs.setV 3 0x42).setPc 0x210)).pc = 0x214 := by decide
theorem test_c12_se_not_taken : (after 0x3342 ((rs.setV 3 0x41).setPc 0x210)).pc = 0x212 := by decide
theorem test_c13_sne_not_taken : (after 0x4342 ((rs.setV 3 0x42).setPc 0x210)).pc = 0x212 := by decide
theorem test_c14_sne_taken : (after 0x4342 (rs.setPc 0x210)).pc = 0x214 := by decide
theorem test_v9_se_reg_ignored_nibble : (after 0x5121 ((rs.setV 1 7).setV 2 7)).pc = 0x204 := by decide
theorem test_se_reg_not_taken : (after 0x5120 (rs.setV 1 7)).pc = 0x202 := by decide
theorem test_c16_sne_reg_same : (after 0x9440 ((rs.setV 4 9).setPc 0x210)).pc = 0x212 := by decide
theorem test_c17_sne_reg : (after 0x9120 ((rs.setV 1 7).setV 2 8)).pc = 0x204 := by decide
theorem test_c19_jp_v0_past_the_end : (after 0xBFFF (rs.setV 0 0xFF)).pc = 0x10FE := by decide
theorem test_c20_jp_vx :
    (after 0xB300 (under (fun p => { p with jumpReg := .vx }) ((rs.setV 0 1).setV 3 0x20))).pc = 0x320 := by decide

/-! ### Arithmetic and logic (vectors A1 to A32) -/

theorem test_a1_ld_imm : (after 0x6A42 rs).getV 0xA = 0x42 := by decide
theorem test_a2_add_imm_no_flag :
    (after 0x7201 ((rs.setV 2 0xFF).setV 0xF 7)).getV 2 = 0 ∧ (after 0x7201 ((rs.setV 2 0xFF).setV 0xF 7)).getV 0xF = 7 := by
  decide
theorem test_a3_add_imm_to_vf : (after 0x7F01 (rs.setV 0xF 1)).getV 0xF = 2 := by decide
theorem test_a4_ld_reg : (after 0x8010 (rs.setV 1 0x33)).getV 0 = 0x33 := by decide
theorem test_a5_or :
    (after 0x8011 (((rs.setV 0 0xC).setV 1 0xA).setV 0xF 1)).getV 0 = 0xE ∧
      (after 0x8011 (((rs.setV 0 0xC).setV 1 0xA).setV 0xF 1)).getV 0xF = 1 := by decide
theorem test_a5_or_reset_vf :
    (after 0x8011 (under (fun p => { p with logicVf := .reset }) (((rs.setV 0 0xC).setV 1 0xA).setV 0xF 1))).getV 0xF = 0 := by
  decide
theorem test_a6_and : (after 0x8012 ((rs.setV 0 0xC).setV 1 0xA)).getV 0 = 8 := by decide
theorem test_a7_xor : (after 0x8013 ((rs.setV 0 0xC).setV 1 0xA)).getV 0 = 6 := by decide
theorem test_a8_xor_self : (after 0x8553 (rs.setV 5 0x5A)).getV 5 = 0 := by decide
theorem test_a12_add_to_vf : (after 0x8F14 ((rs.setV 0xF 0x80).setV 1 0x80)).getV 0xF = 1 := by decide
theorem test_a13_add_vf_old :
    (after 0x80F4 ((rs.setV 0 1).setV 0xF 0xFF)).getV 0 = 0 ∧ (after 0x80F4 ((rs.setV 0 1).setV 0xF 0xFF)).getV 0xF = 1 := by
  decide
theorem test_a16_sub_borrow :
    (after 0x8015 ((rs.setV 0 3).setV 1 5)).getV 0 = 0xFE ∧ (after 0x8015 ((rs.setV 0 3).setV 1 5)).getV 0xF = 0 := by decide
theorem test_a17_sub_equal : (after 0x8015 ((rs.setV 0 7).setV 1 7)).getV 0xF = 1 := by decide
theorem test_a20_subn :
    (after 0x8017 ((rs.setV 0 3).setV 1 5)).getV 0 = 2 ∧ (after 0x8017 ((rs.setV 0 3).setV 1 5)).getV 0xF = 1 := by decide
theorem test_a21_subn_borrow :
    (after 0x8017 ((rs.setV 0 5).setV 1 3)).getV 0 = 0xFE ∧ (after 0x8017 ((rs.setV 0 5).setV 1 3)).getV 0xF = 0 := by decide
theorem test_a25_shr_to_vf : (after 0x8F06 (rs.setV 0xF 3)).getV 0xF = 1 := by decide
theorem test_a26_shr_sources :
    (after 0x8016 ((rs.setV 0 0xFF).setV 1 4)).getV 0 = 0x7F ∧
      (after 0x8016 (under (fun p => { p with shiftSrc := .vy }) ((rs.setV 0 0xFF).setV 1 4))).getV 0 = 2 := by decide
theorem test_a27_shl : (after 0x800E (rs.setV 0 0x81)).getV 0 = 2 ∧ (after 0x800E (rs.setV 0 0x81)).getV 0xF = 1 := by
  decide
theorem test_a29_shl_vy :
    (after 0x801E (under (fun p => { p with shiftSrc := .vy }) ((rs.setV 0 1).setV 1 0x80))).getV 0 = 0 := by decide
theorem test_a30_rnd_masks : (rndWith 0xAB 0 0x0F rs).getV 0 = 0x0B ∧ (rndWith 0x5C 3 0xFF rs).getV 3 = 0x5C := by decide
theorem test_a31_rnd_draws_once : (after 0xC000 rs).draws = 1 ∧ (after 0xC000 rs).pc = 0x202 := by decide

/-! ### Index register and memory (vectors M1 to M20) -/

theorem test_m1_ld_i : (after 0xA123 rs).i = 0x123 := by decide
theorem test_m2_add_i :
    (after 0xF31E (((rs.setI 0xFFE).setV 3 3).setV 0xF 7)).i = 0x1001 ∧
      (after 0xF31E (((rs.setI 0xFFE).setV 3 3).setV 0xF 7)).getV 0xF = 7 := by decide
theorem test_m4_add_i_wraps :
    (after 0xF01E (under (fun p => { p with fx1eVf := .overflow12 }) ((rs.setI 0xFFFF).setV 0 1))).i = 0 ∧
      (after 0xF01E (under (fun p => { p with fx1eVf := .overflow12 }) ((rs.setI 0xFFFF).setV 0 1))).getV 0xF = 1 := by
  decide
theorem test_m5_font : (after 0xF529 (rs.setV 5 5)).i = 0x069 := by decide
theorem test_m7_font_digit :
    (after 0xF529 (rs.setV 5 0x1A)).i = 0x082 ∧
      (after 0xF529 (under (fun p => { p with fontDigit := .unmasked }) (rs.setV 5 0x1A))).i = 0x0D2 := by decide
theorem test_m8_bcd :
    (after 0xF033 ((rs.setV 0 0xFE).setI 0x300)).readBytes 0x300 3 = some [2, 5, 4] := by decide
theorem test_m13_bcd_past_the_end :
    (after 0xF033 ((rs.setV 0 9).setI 0xFFE)).status = .halted .outOfBounds 0x200 (some 0xF033) ∧
      (after 0xF033 ((rs.setV 0 9).setI 0xFFE)).byteAt 0xFFE = 0 := by decide
theorem test_m14_store :
    (after 0xF255 ((((rs.setV 0 1).setV 1 2).setV 2 3).setI 0x400)).readBytes 0x400 4 = some [1, 2, 3, 0] ∧
      (after 0xF255 (under (fun p => { p with ldstI := .increment }) (rs.setI 0x400))).i = 0x403 := by decide
theorem test_m16_store_past_the_end :
    (after 0xF155 ((rs.setV 0 9).setI 0xFFF)).status = .halted .outOfBounds 0x200 (some 0xF155) ∧
      (after 0xF155 ((rs.setV 0 9).setI 0xFFF)).byteAt 0xFFF = 0 := by decide
theorem test_m18_load :
    (after 0xF265 (withBytes 0x300 [2, 5, 4, 9] (rs.setI 0x300))).v.toList.take 4 = [2, 5, 4, 0] := by decide
theorem test_m20_load_past_the_end :
    (after 0xF065 (rs.setI 0xFFF1)).status = .halted .outOfBounds 0x200 (some 0xF065) := by decide

/-! ### Display (vectors D1 to D13) -/

theorem test_d1_cls : (after 0x00E0 (withPixel (5, 1) rs)).disp = blankDisplay := by decide
theorem test_d2_draw_glyph :
    ((List.range 6).map fun r => onIn (after 0xD015 (rs.setI 0x050)) (Fin.ofNat 32 r)) =
      [[0, 1, 2, 3], [0, 3], [0, 3], [0, 3], [0, 1, 2, 3], []] := by decide
theorem test_d4_d5_wrap :
    onIn (after 0xD011 (withBytes 0x300 [0xFF] ((rs.setI 0x300).setV 0 60))) 0 = [0, 1, 2, 3, 60, 61, 62, 63] ∧
      onIn (after 0xD012 (withBytes 0x300 [0x80, 0x80] ((rs.setI 0x300).setV 1 31))) 0 = [0] := by decide

/-! ### Timers and keys (vectors T1 to T14) -/

theorem test_t3_tick : (withTimers 3 1 rs).tick.dt = 2 ∧ (withTimers 3 1 rs).tick.st = 0 ∧ rs.tick.dt = 0 := by decide
theorem test_t5_read_dt : (after 0xF307 (withTimers 0x3C 0 rs)).getV 3 = 0x3C := by decide
theorem test_t6_write_dt : (after 0xF315 (rs.setV 3 0x3C)).dt = 0x3C := by decide
theorem test_t7_write_st : (after 0xF318 (rs.setV 3 1)).st = 1 ∧ (after 0xF318 (rs.setV 3 1)).tone = true := by decide
theorem test_t8_skp :
    (after 0xE19E ((rs.setV 1 0xA).setKey 0xA true)).pc = 0x204 ∧ (after 0xE19E (rs.setV 1 0xA)).pc = 0x202 := by decide
theorem test_t11_skp_invalid_key :
    (after 0xE19E ((rs.setV 1 0x10).setKey 0 true)).status = .halted .invalidKey 0x200 (some 0xE19E) ∧
      (after 0xE19E (under (fun p => { p with keyIndex := .lowNibble }) ((rs.setV 1 0x10).setKey 0 true))).pc = 0x204 := by
  decide
theorem test_t10_sknp :
    (after 0xE1A1 (rs.setV 1 0xA)).pc = 0x204 ∧ (after 0xE1A1 ((rs.setV 1 0xA).setKey 0xA true)).pc = 0x202 := by decide
theorem test_t12_wait_begins :
    (after 0xF30A ((rs.setPc 0x300).setKey 5 true)).status = .waitingForKey 3 ∧
      (after 0xF30A ((rs.setPc 0x300).setKey 5 true)).pc = 0x300 := by decide
theorem test_t14_wait_ends :
    (afterCycle (withStatus (.waitingForKey 0xF) ((rs.setV 0xF 1).setKey 2 true))).getV 0xF = 2 := by decide
theorem test_t13_lowest_key :
    (afterCycle (withStatus (.waitingForKey 3)
      (under (fun p => { p with keySelect := .lowest }) ((rs.setKey 9 true).setKey 3 true)))).getV 3 = 3 := by decide

/-! ### Load (vectors L1 to L5) -/

theorem test_l2_image_too_large : loadRefused defaultParams 3585 = true ∧ loadRefused defaultParams 3584 = false := by decide
theorem test_l4_load_leaves_halted :
    (((withStatus (.halted .stackOverflow 0x200 (some 0x2200)) ((rs.setV 3 7).setKey 2 true)).load [0x60] []).status =
      .running) ∧ ((rs.setV 3 7).load [0x60] []).getV 3 = 0 := by decide
theorem test_l5_font_not_restored :
    ((after 0xF055 ((rs.setV 0 0x77).setI 0x050)).load [0x60, 0x01] []).byteAt 0x050 = 0x77 ∧
      ((after 0xF055 ((rs.setV 0 0x77).setI 0x300)).load [0x60, 0x01] []).byteAt 0x300 = 0 := by decide

/-! ### Witnesses: a concrete state and operands for the hypotheses of each statement

A name ends in the statement's, then in the clause. Boundary values where a clause has a range. -/

/-- A state under parameters with one field changed. -/
def vxJump : State := under (fun p => { p with jumpReg := .vx }) rs
def lowestKey : State := under (fun p => { p with keySelect := .lowest }) rs
def resetVf : State := under (fun p => { p with logicVf := .reset }) rs
def shiftVy : State := under (fun p => { p with shiftSrc := .vy }) rs
def overflowVf : State := under (fun p => { p with fx1eVf := .overflow12 }) rs
def incrementI : State := under (fun p => { p with ldstI := .increment }) rs
def lowNibbleKey : State := under (fun p => { p with keyIndex := .lowNibble }) rs
def unmaskedDigit : State := under (fun p => { p with fontDigit := .unmasked }) rs
def haltSys : State := under (fun p => { p with sys := .halt }) rs
/-- A font that an image would overlap: no legal FONT_BASE, but LoadResetsTheMachine speaks of it. -/
def highFont : State := under (fun p => { p with fontBase := 0x1F0 }) rs

theorem witness_DecodeOfEncode : (Instr.sys 0x0DF).wellFormed = true ∧ (Instr.drw 0xF 0xF 0xF).wellFormed = true := by
  decide
theorem witness_DecodedWord : decode 0x0000 = .ok (.sys 0x000) ∧ decode 0xFF65 = .ok (.ldVxMem 0xF) := by decide

theorem witness_IllegalWords :
    rs.status = .running ∧ (rs.withFetchWord 16 0x8008).status = .running ∧
      (rs.withFetchWord 16 0x8008).fetch = some 0x8008 ∧ IllegalWord 0x8008 ∧ IllegalWord 0x800F ∧
      IllegalWord 0xE000 ∧ IllegalWord 0xF000 :=
  ⟨by decide, by decide, by decide, .inl (by decide), .inl (by decide), .inr (.inl (by decide)), .inr (.inr (by decide))⟩
theorem witness_IllegalWords_extension_nibbles : (0xB : Nibble) ≤ 0xB ∧ (0xB : Nibble) ≤ 0xF := by decide
theorem witness_DecodableWords :
    Instr.cls.wellFormed = true ∧ (Instr.sys 0x0DF).wellFormed = true ∧ encode .cls = encode .cls ∧
      encode (.sys 0x0DF) = encode (.sys 0x0DF) := by decide
theorem witness_AssemblerPlacesFields :
    (Instr.jp 0xFFF).wellFormed = true ∧ (∀ x y g, Instr.jp 0xFFF = .seReg x y g → g = 0) ∧
      (∀ x y g, Instr.jp 0xFFF = .sneReg x y g → g = 0) ∧ 0x1000 ≤ 0x1000 ∧ 0x100 ≤ 0x100 ∧ 0x10 ≤ 0x10 := by
  refine ⟨by decide, ?_, ?_, by decide, by decide, by decide⟩ <;> (intro x y g h; cases h)

theorem witness_StepRuns :
    (rs.withFetchWord 16 0x6A42).status = .running ∧ (rs.withFetchWord 16 0x6A42).pc.toNat + 1 < 4096 ∧
      (rs.withFetchWord 16 0x6A42).byteAt 0x200 = 0x6A ∧ (rs.withFetchWord 16 0x6A42).byteAt 0x201 = 0x42 ∧
      (0x6A42 : Word).toNat = (0x6A : Byte).toNat * 256 + (0x42 : Byte).toNat ∧
      decode 0x6A42 = .ok (.ldImm 0xA 0x42) := by decide
theorem witness_Fetch : (rs.setPc 0xFFE).pc.toNat < 0x0FFF ∧ 0x0FFF ≤ (rs.setPc 0xFFF).pc.toNat ∧
    (rs.setPc 0xFFF).status = .running := by decide
theorem witness_HaltedCycle :
    (withStatus (.halted .stackUnderflow 0x210 (some 0x00EE)) rs).status = .halted .stackUnderflow 0x210 (some 0x00EE) ∧
      rs.isHalted = false ∧ (withStatus (.waitingForKey 3) rs).isHalted = false := by decide
theorem witness_KeyWaitCycle_no_key :
    (withStatus (.waitingForKey 3) rs).status = .waitingForKey 3 ∧
      ∀ k, (withStatus (.waitingForKey 3) rs).isPressed k = false := by decide
theorem witness_KeyWaitCycle_keys :
    (withStatus (.waitingForKey 0xF) (rs.setKey 0xF true)).isPressed 0xF = true ∧
      (withStatus (.waitingForKey 3) ((rs.setKey 9 true).setKey 3 true)).isPressed 9 = true ∧
      (withStatus (.waitingForKey 3) ((lowestKey.setKey 9 true).setKey 3 true)).cfg.keySelect = .lowest ∧
      (withStatus (.waitingForKey 3) ((lowestKey.setKey 9 true).setKey 3 true)).isPressed 3 = true := by decide
/-- An answer is a next state. -/
def answers : Result → Bool
  | .next _ => true
  | .fault _ => false
  | .refused _ => false

theorem next_stateOf (s : State) (r : Result) (h : answers r = true) : r = .next (stateOf s r) := by
  cases r with
  | next t => rfl
  | fault f => cases h
  | refused f => cases h

theorem witness_HaltIsPrecise :
    (rs.setPc 0xFFF).isHalted = false ∧ step (rs.setPc 0xFFF) = .next (afterCycle (rs.setPc 0xFFF)) ∧
      (afterCycle (rs.setPc 0xFFF)).status = .halted .outOfBounds 0xFFF none ∧
      step (rs.withFetchWord 16 0x00EE) = .next (after 0x00EE rs) ∧
      (after 0x00EE rs).status = .halted .stackUnderflow 0x200 (some 0x00EE) :=
  ⟨by decide, next_stateOf (rs.setPc 0xFFF) _ (by decide), by decide,
    next_stateOf (rs.withFetchWord 16 0x00EE) _ (by decide), by decide⟩

/-- The hypotheses of ErrorKindsByInstruction, for one instruction and state. -/
def raises (i : Instr) (s : State) (e : HaltReason) : Bool :=
  s.status == .running &&
    match exec i s with
    | .next t => t.status == .halted e s.pc (some (encode i))
    | .fault _ => false
    | .refused _ => false

theorem witness_ErrorKinds_outOfBounds :
    raises (.drw 0 0 2) (rs.setI 0xFFF) .outOfBounds = true ∧ raises (.ldBVx 0) (rs.setI 0xFFE) .outOfBounds = true ∧
      raises (.ldMemVx 1) (rs.setI 0xFFF) .outOfBounds = true ∧ raises (.ldVxMem 0) (rs.setI 0x1000) .outOfBounds = true := by
  decide
theorem witness_ErrorKinds_others :
    raises (.sys 0) haltSys .unknownOpcode = true ∧
      raises (.call 0) (withStack (List.replicate 16 0) rs) .stackOverflow = true ∧
      raises .ret rs .stackUnderflow = true ∧ raises (.skp 0) (rs.setV 0 16) .invalidKey = true ∧
      raises (.sknp 0) (rs.setV 0 16) .invalidKey = true := by decide

/-- A halted state that meets the invariant. -/
def haltedState : State := afterCycle (rs.setPc 0xFFF)

theorem witness_OnlyLoad :
    haltedState.isHalted = true ∧ runEvent (.load [] []) haltedState = .next (haltedState.load [] []) ∧
      (haltedState.load [] []).isHalted = false := ⟨by decide, rfl, by decide⟩
theorem witness_Construction : defaultParams.ok ∧ Params.ok { defaultParams with fontBase := 0x1B0 } := by decide

theorem witness_Inv_reset : rs.Inv :=
  ⟨by decide, construct_memory_wf _, by decide, fun _ h => (List.not_mem_nil h).elim, by decide, by decide⟩
theorem witness_Inv_waiting : (withStatus (.waitingForKey 3) (rs.setPc 0xFFE)).Inv :=
  ⟨by decide, ⟨List.Pairwise.nil, fun _ h => (List.not_mem_nil h).elim⟩, by decide,
    fun _ h => (List.not_mem_nil h).elim, by decide, by decide⟩
theorem witness_Inv_halted_full_stack :
    (withStack (List.replicate 16 0x1000) (withStatus (.halted .outOfBounds 0x10FE none) (rs.setPc 0x10FE))).Inv :=
  ⟨by decide, ⟨List.Pairwise.nil, fun _ h => (List.not_mem_nil h).elim⟩, by decide,
    fun _ h => by rw [List.eq_of_mem_replicate h]; decide, by decide, by decide⟩
theorem witness_StepKeepsInvariant : ∃ t, rs.Inv ∧ step rs = .next t :=
  ⟨afterCycle rs, witness_Inv_reset, next_stateOf _ _ (by decide)⟩

theorem witness_ReadAfterWrite :
    (rs.writeByte 4095 7).isSome = true ∧ (rs.writeByte 0 7).isSome = true ∧ rs.writeByte 4096 7 = none ∧ (4094 ≠ 4095) := by
  decide
theorem witness_MemoryOperations :
    Memory.wf rs.cfg rs.mem ∧ rs.writeBytes 0xFFF [7] = some (withBytes 0xFFF [7] rs) :=
  ⟨construct_memory_wf _, by decide⟩
theorem witness_StoreIsSeen :
    1 ≤ (1 : RegIdx).toNat ∧ ((rs.setPc 0xFFC).setI 0xFFE).i.toNat = ((rs.setPc 0xFFC).setI 0xFFE).pc.toNat + 2 ∧
      ((rs.setPc 0xFFC).setI 0xFFE).i.toNat + (1 : RegIdx).toNat < 4096 := by decide
theorem witness_ConstructionState : 0x04F < defaultParams.fontBase ∧ defaultParams.fontBase + 80 ≤ 0x0A0 := by decide
theorem witness_LoadResets_fits :
    ([] : List Byte).length ≤ 3584 ∧ (List.replicate 3584 (1 : Byte)).length ≤ 3584 ∧
      rs.cfg.fontBase + 80 ≤ 0x200 ∧ 0x200 + [(1 : Byte)].length ≤ (under (fun p => { p with fontBase := 0x201 }) rs).cfg.fontBase ∧
      (0x1FF < 0x200 ∧ rs.cfg.fontBase + 80 ≤ 0x1FF) := by
  exact ⟨by decide, Nat.le_of_eq List.length_replicate, by decide, by decide, by decide⟩
theorem witness_LoadResets_refused :
    3584 < (List.replicate 3585 (1 : Byte)).length ∧
      (0 < [(1 : Byte)].length ∧ highFont.cfg.fontBase < 0x200 + [(1 : Byte)].length ∧ 0x200 < highFont.cfg.fontBase + 80) := by
  exact ⟨by rw [List.length_replicate]; decide, by decide⟩
theorem witness_FirstFetch : rs.cfg.ok ∧ [(0x60 : Byte)].length ≤ 3584 ∧ ([] : List Byte).length ≤ 3584 := by decide
theorem witness_SetKey : (0xF : Key) ≠ 0x0 := by decide

/-! Which instruction writes what. -/

theorem witness_Writes_display :
    exec .cls (withPixel (63, 31) rs) = .next (stateOf rs (exec .cls (withPixel (63, 31) rs))) ∧
      pixel (stateOf rs (exec .cls (withPixel (63, 31) rs))).disp (63, 31) ≠ pixel (withPixel (63, 31) rs).disp (63, 31) :=
  ⟨next_stateOf _ _ (by decide), by decide⟩
theorem witness_Writes_stack_timers :
    (stateOf rs (exec (.call 0x300) rs)).stack ≠ rs.stack ∧
      (stateOf rs (exec (.ldDtVx 0) (rs.setV 0 1))).dt ≠ rs.dt ∧ (stateOf rs (exec (.ldStVx 0) (rs.setV 0 1))).st ≠ rs.st ∧
      [exec (.call 0x300) rs, exec (.ldDtVx 0) (rs.setV 0 1), exec (.ldStVx 0) (rs.setV 0 1)].all answers = true := by
  decide
theorem witness_Writes_memory_draws :
    (stateOf rs (exec (.ldBVx 0) ((rs.setV 0 100).setI 0x300))).byteAt 0x300 ≠ rs.byteAt 0x300 ∧
      (stateOf rs (exec (.rnd 0 0) rs)).draws ≠ rs.draws ∧
      [exec (.ldBVx 0) ((rs.setV 0 100).setI 0x300), exec (.rnd 0 0) rs].all answers = true := by decide
theorem witness_WritesI :
    (stateOf rs (exec (.ldI 1) rs)).i ≠ rs.i ∧ (stateOf rs (exec (.ldFVx 0) rs)).i ≠ rs.i ∧
      (stateOf rs (exec (.ldMemVx 0) incrementI)).i ≠ incrementI.i ∧
      [exec (.ldI 1) rs, exec (.ldFVx 0) rs, exec (.ldMemVx 0) incrementI].all answers = true := by decide
theorem witness_WritesRegisters :
    exec (.addImm 0 1) rs = .next (stateOf rs (exec (.addImm 0 1) rs)) ∧
      (stateOf rs (exec (.addImm 0 1) rs)).getV 0 ≠ rs.getV 0 ∧
      (stateOf rs (exec (.sub 0 1) rs)).getV 0xF ≠ rs.getV 0xF ∧
      (stateOf rs (exec (.orReg 0 1) (resetVf.setV 0xF 1))).getV 0xF ≠ (resetVf.setV 0xF 1).getV 0xF :=
  ⟨next_stateOf _ _ (by decide), by decide⟩
theorem witness_DefaultPcAdvance :
    rs.status = .running ∧ exec (.ldImm 0 1) rs = .next (stateOf rs (exec (.ldImm 0 1) rs)) ∧
      (stateOf rs (exec (.ldImm 0 1) rs)).status = .running ∧
      (∀ nnn, Instr.ldImm 0 1 ≠ .jp nnn ∧ Instr.ldImm 0 1 ≠ .call nnn ∧ Instr.ldImm 0 1 ≠ .jpV0 nnn) ∧
      Instr.ldImm 0 1 ≠ .ret ∧ (∀ x kk, Instr.ldImm 0 1 ≠ .seImm x kk ∧ Instr.ldImm 0 1 ≠ .sneImm x kk) ∧
      (∀ x y g, Instr.ldImm 0 1 ≠ .seReg x y g ∧ Instr.ldImm 0 1 ≠ .sneReg x y g) ∧
      (∀ x, Instr.ldImm 0 1 ≠ .skp x ∧ Instr.ldImm 0 1 ≠ .sknp x ∧ Instr.ldImm 0 1 ≠ .ldVxK x) := by
  refine ⟨by decide, next_stateOf _ _ (by decide), by decide, ?_, by decide, ?_, ?_, ?_⟩ <;> simp

/-! Control flow. -/

theorem witness_Sys : rs.cfg.sys = .nop ∧ haltSys.cfg.sys = .halt ∧ (0x0DF : Addr12) ≠ 0x0E0 ∧ (0x0DF : Addr12) ≠ 0x0EE := by
  decide
theorem witness_Ret :
    (withStack [0x202, 0x1000] rs).stack = [0x202] ++ [(0x1000 : Word)] ∧ 0x0FFF ≤ (0x1000 : Word).toNat ∧ rs.stack = [] := by
  decide
theorem witness_Jp : (0xFFF : Addr12) = 0xFFF := rfl
theorem witness_Call :
    (withStack (List.replicate 15 0) rs).stack.length < 16 ∧ 16 ≤ (withStack (List.replicate 16 0) rs).stack.length := by
  decide
theorem witness_ReturnUndoesCall : (withStack (List.replicate 15 0) rs).stack.length < 16 ∧ rs.stack.length < 16 := by decide
theorem witness_Skip :
    rs.getV 3 = 0 ∧ (rs.setV 3 0xFF).getV 3 ≠ 0xFE ∧ rs.getV 1 = rs.getV 2 ∧ (rs.setV 1 1).getV 1 ≠ (rs.setV 1 1).getV 2 := by
  decide
theorem witness_JpV0 :
    rs.cfg.jumpReg = .v0 ∧ vxJump.cfg.jumpReg = .vx ∧
      0x0FFF ≤ (stateOf rs (exec (.jpV0 0xFFF) (rs.setV 0 0))).pc.toNat := by decide

/-! Arithmetic and logic. -/

theorem witness_Logic : rs.cfg.logicVf = .unchanged ∧ resetVf.cfg.logicVf = .reset ∧ (0xE : RegIdx) ≠ 0xF := by decide
theorem witness_Carry :
    (0xE : RegIdx) ≠ 0xF ∧ ¬255 < (0xFE : Byte).toNat + (0x01 : Byte).toNat ∧ 255 < (0xFF : Byte).toNat + (0x01 : Byte).toNat := by
  decide
theorem witness_Borrow : (7 : Byte).toNat ≤ (7 : Byte).toNat ∧ ¬(8 : Byte).toNat ≤ (7 : Byte).toNat := by decide
theorem witness_Shifts :
    (rs.cfg.shiftSrc = .vx → (0 : Byte) = rs.getV 1) ∧ (rs.cfg.shiftSrc = .vy → (0 : Byte) = rs.getV 2) ∧
      (shiftVy.cfg.shiftSrc = .vx → (7 : Byte) = (shiftVy.setV 2 7).getV 1) ∧
      (shiftVy.cfg.shiftSrc = .vy → (7 : Byte) = (shiftVy.setV 2 7).getV 2) := by decide
theorem witness_Random :
    ∃ t, exec (.ldImm 0 1) rs = .next t ∧ ∀ x kk, Instr.ldImm 0 1 ≠ .rnd x kk :=
  ⟨_, rfl, by simp⟩

/-! Index register and memory. -/

theorem witness_AddIndex :
    rs.cfg.fx1eVf = .unchanged ∧ overflowVf.cfg.fx1eVf = .overflow12 ∧
      ¬0x0FFF < (overflowVf.setI 0xFFF).i.toNat + (overflowVf.getV 0).toNat ∧
      0x0FFF < ((overflowVf.setI 0xFFF).setV 0 1).i.toNat + (((overflowVf.setI 0xFFF).setV 0 1).getV 0).toNat := by decide
theorem witness_LoadFont :
    rs.cfg.ok ∧ rs.cfg.fontDigit = .lowNibble ∧ unmaskedDigit.cfg.ok ∧ unmaskedDigit.cfg.fontDigit = .unmasked := by decide
theorem witness_Bcd : (rs.setI 0xFFD).dataAddr + 2 < 4096 ∧ 4096 ≤ (rs.setI 0xFFE).dataAddr + 2 := by decide
theorem witness_StoreLoad :
    (rs.setI 0xFF0).dataAddr + (0xF : RegIdx).toNat < 4096 ∧ 4096 ≤ (rs.setI 0xFF1).dataAddr + (0xF : RegIdx).toNat ∧
      rs.cfg.ldstI = .unchanged ∧ incrementI.cfg.ldstI = .increment ∧ (0 : RegIdx) ≤ 0xF ∧ (0xE : RegIdx) < 0xF := by decide

/-! Display. -/

theorem witness_Draw :
    (0 : Nibble) = 0 ∧ (rs.setI 0xFFE).dataAddr + (2 : Nibble).toNat - 1 < 4096 ∧
      (0 < (2 : Nibble).toNat ∧ 4096 ≤ (rs.setI 0xFFF).dataAddr + (2 : Nibble).toNat - 1) := by decide
theorem witness_Draw_collision :
    pixel (withPixel (0, 0) rs).disp (0, 0) = true ∧
      pixel (after 0xD011 ((withPixel (0, 0) rs).setI 0x050)).disp (0, 0) = false := by decide
theorem witness_Draw_no_collision :
    ∀ c, pixel rs.disp c = true → pixel (after 0xD011 (rs.setI 0x050)).disp c = true := by
  intro c h
  have : pixel rs.disp c = false := pixel_blankDisplay c
  rw [this] at h
  cases h
theorem witness_NoPixelTwice : (List.replicate 15 (0xFF : Byte)).length ≤ 15 := by decide

/-- The state and the answer of the first draw of DrawingTwiceRestores: glyph 0 at (0, 0) on a blank display. -/
def firstDraw : State := stateOf rs (exec (.drw 0 1 5) (rs.setI 0x050))

theorem witness_DrawingTwice :
    ((rs.setI 0x050).dataAddr + (5 : Nibble).toNat - 1 < 4096) ∧
      (∀ c, SpriteCovers (rs.setI 0x050) ((rs.setI 0x050).getV 0) ((rs.setI 0x050).getV 1) (5 : Nibble).toNat c →
        pixel (rs.setI 0x050).disp c = false) ∧
      exec (.drw 0 1 5) (rs.setI 0x050) = .next firstDraw ∧ firstDraw.getV 0 = (rs.setI 0x050).getV 0 ∧
      firstDraw.getV 1 = (rs.setI 0x050).getV 1 :=
  ⟨by decide, fun c _ => pixel_blankDisplay c, next_stateOf _ _ (by decide), by decide, by decide⟩
theorem witness_DrawingTwice_covers :
    SpriteCovers (rs.setI 0x050) ((rs.setI 0x050).getV 0) ((rs.setI 0x050).getV 1) (5 : Nibble).toNat (0, 0) :=
  ⟨0, 0, by decide, by decide, by decide, by decide, by decide⟩

/-! Keys. -/

theorem witness_KeySkips :
    ((0xF : Key).toNat = ((rs.setV 1 15).getV 1).toNat % 16 ∧ ((rs.setV 1 15).getV 1).toNat ≤ 15) ∧
      ((0 : Key).toNat = ((lowNibbleKey.setV 1 16).getV 1).toNat % 16 ∧ lowNibbleKey.cfg.keyIndex = .lowNibble) ∧
      (15 < ((rs.setV 1 16).getV 1).toNat ∧ rs.cfg.keyIndex = .halt) := by decide
theorem witness_KeyWaitIssued : ∀ k, rs.isPressed k = false := by decide

end Sys2Proof.Tests
end

section

/-! # Memory: what a one-byte store answers and what a read after it gives (20_memory.md) -/

namespace Sys2Proof.Machine

/-- A one-byte store at a valid address is taken. -/
theorem writeByte_of_lt (s : State) {a : Nat} (b : Byte) (h : a < memSize) :
    ∃ t, s.writeByte a b = some t :=
  ⟨_, writeBytes_of_le s (bs := [b]) h⟩

/-- A one-byte store past the last address is OutOfBounds (R52). -/
theorem writeByte_of_ge (s : State) {a : Nat} (b : Byte) (h : memSize ≤ a) : s.writeByte a b = none := by
  rw [Option.eq_none_iff_forall_ne_some]
  intro t ht
  obtain ⟨hb | hb, -⟩ := writeBytes_eq_some ht
  · exact List.cons_ne_nil b [] hb
  · rw [List.length_singleton] at hb
    omega

theorem writeByte_frame {s t : State} {a : Nat} {b : Byte} (h : s.writeByte a b = some t) : Frame s t [.mem] [] :=
  writeBytes_frame h

/-- A one-byte store changes its own address and no other. -/
theorem byteAt_writeByte {s t : State} {a : Nat} {b : Byte} (h : s.writeByte a b = some t) (c : Nat) :
    t.byteAt c = if c = a then b else s.byteAt c := by
  rw [byteAt_writeBytes h]
  by_cases hc : c = a
  · subst hc
    simp
  · rw [if_neg hc, if_neg]
    rw [List.length_singleton]
    omega

theorem readByte_writeByte_same {s t : State} {a : Nat} {b : Byte} (h : s.writeByte a b = some t)
    (ha : a < memSize) : t.readByte a = some b := by
  rw [readByte_of_lt t ha, byteAt_writeByte h, if_pos rfl]

/-- Past the last address this holds too: both reads are OutOfBounds. -/
theorem readByte_writeByte_of_ne {s t : State} {a c : Nat} {b : Byte} (h : s.writeByte a b = some t)
    (hc : c ≠ a) : t.readByte c = s.readByte c := by
  unfold State.readByte
  rw [byteAt_writeByte h, if_neg hc]

/-- Settles O18: below 4096 the store is taken and the read laws above say what it leaves; from 4096 on neither access
is in bounds (R53). -/
theorem readAfterWriteGivesTheByte : Obligations.ReadAfterWriteGivesTheByte := by
  intro s a b
  constructor
  · intro ha
    obtain ⟨t, ht⟩ := writeByte_of_lt s b ha
    exact ⟨t, ht, readByte_writeByte_same ht ha, fun _ hc => readByte_writeByte_of_ne ht hc, writeByte_frame ht⟩
  · intro ha
    exact ⟨writeByte_of_ge s b ha, readByte_of_ge s ha⟩

end Sys2Proof.Machine
end

section

/-! # The cycle: which words are Unknown, and what the fetch reads (30_encoding.md R73, 40_cycle.md R82, R85) -/

namespace Sys2Proof

/-! ### Which family decodes a word, and which of its selectors are Unknown -/

theorem decode_of_fieldOp_eq_8 {w : Word} (h : fieldOp w = 0x8) : decode w = decodeFamily8 w := by
  simp [decode, h]

theorem decode_of_fieldOp_eq_E {w : Word} (h : fieldOp w = 0xE) : decode w = decodeFamilyE w := by
  simp [decode, h]

theorem decode_of_fieldOp_eq_F {w : Word} (h : fieldOp w = 0xF) : decode w = decodeFamilyF w := by
  simp [decode, h]

/-- The default case of `decode` is family F. -/
theorem nibble_eq_F_of_notMem : ∀ op : Nibble,
    op ∉ [0x0, 0x1, 0x2, 0x3, 0x4, 0x5, 0x6, 0x7, 0x8, 0x9, 0xA, 0xB, 0xC, 0xD, (0xE : Nibble)] → op = 0xF := by
  decide

/-- Every other family decodes all its words (R71). -/
theorem decode_ok_of_fieldOp {w : Word} (h : fieldOp w ∉ [0x8, 0xE, (0xF : Nibble)]) :
    ∃ i, decode w = .ok i := by
  unfold decode
  split
  case h_9 h8 => simp [h8] at h
  case h_15 hE => simp [hE] at h
  case h_16 =>
    have hF : fieldOp w = 0xF := nibble_eq_F_of_notMem _ (by simp_all)
    simp [hF] at h
  all_goals exact ⟨_, rfl⟩

/-- The default case of `decodeFamily8` is R73's seven selectors. -/
theorem nibble_mem_unknownArith_of_notMem : ∀ n : Nibble,
    n ∉ [0x0, 0x1, 0x2, 0x3, 0x4, 0x5, 0x6, 0x7, (0xE : Nibble)] →
      n ∈ [0x8, 0x9, 0xA, 0xB, 0xC, 0xD, (0xF : Nibble)] := by
  decide

theorem decodeFamily8_error_iff (w : Word) :
    (∃ e, decodeFamily8 w = .error e) ↔ fieldN w ∈ [0x8, 0x9, 0xA, 0xB, 0xC, 0xD, (0xF : Nibble)] := by
  unfold decodeFamily8
  split
  case h_10 => exact ⟨fun _ => nibble_mem_unknownArith_of_notMem _ (by simp_all), fun _ => ⟨_, rfl⟩⟩
  all_goals simp [*]

theorem decodeFamilyE_error_iff (w : Word) :
    (∃ e, decodeFamilyE w = .error e) ↔ fieldKK w ∉ [0x9E, (0xA1 : Byte)] := by
  unfold decodeFamilyE
  split <;> simp_all

theorem decodeFamilyF_error_iff (w : Word) :
    (∃ e, decodeFamilyF w = .error e) ↔
      fieldKK w ∉ [0x07, 0x0A, 0x15, 0x18, 0x1E, 0x29, 0x33, 0x55, (0x65 : Byte)] := by
  unfold decodeFamilyF
  split <;> simp_all

namespace Machine

/-- The decoder refuses exactly the words that R73 lists. -/
theorem decode_error_iff_illegalWord (w : Word) : (∃ e, decode w = .error e) ↔ IllegalWord w := by
  unfold IllegalWord
  by_cases h : fieldOp w ∈ [0x8, 0xE, (0xF : Nibble)]
  · simp only [List.mem_cons, List.not_mem_nil, or_false] at h
    obtain h8 | hE | hF := h
    · rw [decode_of_fieldOp_eq_8 h8, decodeFamily8_error_iff]
      simp [h8]
    · rw [decode_of_fieldOp_eq_E hE, decodeFamilyE_error_iff]
      simp [hE]
    · rw [decode_of_fieldOp_eq_F hF, decodeFamilyF_error_iff]
      simp [hF]
  · obtain ⟨i, hi⟩ := decode_ok_of_fieldOp h
    rw [hi]
    simp_all

/-! ### A cycle in Running, by what the fetch and the decoder answer -/

theorem step_of_fetch_none {s : State} (hs : s.status = .running) (hf : s.fetch = none) :
    step s = .next (raise .outOfBounds none s) := by
  simp [step, cycle, runningCycle, hs, hf]

theorem step_of_decode_error {s : State} {w : Word} {e : DecodeError} (hs : s.status = .running)
    (hf : s.fetch = some w) (hd : decode w = .error e) : step s = .next (raise .unknownOpcode (some w) s) := by
  simp [step, cycle, runningCycle, hs, hf, hd]

theorem fetch_of_lt (s : State) (h : s.pc.toNat < 0x0FFF) :
    s.fetch = some (composeWord (s.byteAt s.pc.toNat) (s.byteAt (s.pc.toNat + 1))) := by
  rw [fetch_eq, if_pos (by unfold memSize; omega)]

/-- Settles O3: the decoder refuses exactly R73's words, and the cycle that fetches a refused word raises. -/
theorem illegalWordsHaltUnknownOpcode : Obligations.IllegalWordsHaltUnknownOpcode := by
  refine ⟨decode_error_iff_illegalWord, .inr (.inr (by decide)), ?_⟩
  intro s w hs hf hw
  obtain ⟨e, hd⟩ := (decode_error_iff_illegalWord w).2 hw
  exact ⟨_, step_of_decode_error hs hf hd, raise_haltedFrom _ _ _⟩

/-- Settles O8: below 0x0FFF the fetch composes the two bytes, from 0x0FFF on it answers none and the cycle raises. -/
theorem fetchReadsTwoBytesOrHalts : Obligations.FetchReadsTwoBytesOrHalts := by
  intro s
  constructor
  · intro hpc
    exact ⟨_, fetch_of_lt s hpc, hiByte_composeWord _ _, loByte_composeWord _ _⟩
  · intro hpc hs
    have hf := fetch_eq_none s hpc
    exact ⟨hf, _, step_of_fetch_none hs hf, raise_haltedFrom _ _ _⟩

end Machine
end Sys2Proof
end

section

/-! # Control flow: SYS under P_SYS, and the register skips (41_control_flow.md R88, R89, R93 to R96) -/

namespace Sys2Proof

/-! ### The words of SYS, SE and SNE -/

theorem wordNNN_inj {op : Nibble} {a b : Addr12} : wordNNN op a = wordNNN op b ↔ a = b :=
  Function.Injective.eq_iff (Function.LeftInverse.injective (fieldNNN_wordNNN op))

/-- Family 0 is SYS but for the words of CLS and RET (R71). -/
theorem decode_wordNNN_sys {nnn : Addr12} (hcls : nnn ≠ 0x0E0) (hret : nnn ≠ 0x0EE) :
    decode (wordNNN 0x0 nnn) = .ok (.sys nnn) := by
  have hwcls : wordNNN 0x0 nnn ≠ 0x00E0#16 := mt (wordNNN_inj (b := 0x0E0)).1 hcls
  have hwret : wordNNN 0x0 nnn ≠ 0x00EE#16 := mt (wordNNN_inj (b := 0x0EE)).1 hret
  rw [decode_of_op0 _ (fieldOp_wordNNN _ _), decodeFamily0, if_neg hwcls, if_neg hwret, fieldNNN_wordNNN]

theorem decode_wordXKK_seImm (x : RegIdx) (kk : Byte) : decode (wordXKK 0x3 x kk) = .ok (.seImm x kk) := by
  rw [decode_of_op3 _ (fieldOp_wordXKK _ _ _), fieldX_wordXKK, fieldKK_wordXKK]

theorem decode_wordXKK_sneImm (x : RegIdx) (kk : Byte) : decode (wordXKK 0x4 x kk) = .ok (.sneImm x kk) := by
  rw [decode_of_op4 _ (fieldOp_wordXKK _ _ _), fieldX_wordXKK, fieldKK_wordXKK]

/-- Every low nibble of 5xy_ is SE Vx, Vy (R95, D3). -/
theorem decode_wordXYN_seReg (x y : RegIdx) (g : Nibble) : decode (wordXYN 0x5 x y g) = .ok (.seReg x y g) := by
  rw [decode_of_op5 _ (fieldOp_wordXYN _ _ _ _), fieldX_wordXYN, fieldY_wordXYN, fieldN_wordXYN]

/-- Every low nibble of 9xy_ is SNE Vx, Vy (R96, D3). -/
theorem decode_wordXYN_sneReg (x y : RegIdx) (g : Nibble) : decode (wordXYN 0x9 x y g) = .ok (.sneReg x y g) := by
  rw [decode_of_op9 _ (fieldOp_wordXYN _ _ _ _), fieldX_wordXYN, fieldY_wordXYN, fieldN_wordXYN]

namespace Machine

/-! ### SYS by P_SYS -/

theorem exec_sys_of_nop (nnn : Addr12) {s : State} (h : s.cfg.sys = .nop) :
    exec (.sys nnn) s = .next s.advance := by
  simp only [exec, execSys, h]

theorem exec_sys_of_halt (nnn : Addr12) {s : State} (h : s.cfg.sys = .halt) :
    exec (.sys nnn) s = .next (raise .unknownOpcode (some (wordNNN 0x0 nnn)) s) := by
  simp only [exec, execSys, h, raiseIn, encode]

/-- Settles O30: the word of SYS decodes to it, and its arm is a bare PC + 2 or a raise, by P_SYS (R89). -/
theorem sysActsByParameter : Obligations.SysActsByParameter := by
  intro nnn s
  refine ⟨decode_wordNNN_sys, fun hnop => ?_, fun hhalt => ?_⟩
  · exact ⟨_, exec_sys_of_nop nnn hnop, rfl, advanceBy_frame s 2⟩
  · exact ⟨_, exec_sys_of_halt nnn hhalt, raise_haltedFrom _ _ _⟩

/-! ### The skips -/

/-- An instruction whose arm is a skip on `c` moves PC by what `c` decides, and changes nothing else (R88). -/
theorem skips_of_exec_eq_skipIf {i : Instr} {s : State} {c : Bool} {p : Prop} [Decidable p]
    (he : exec i s = .next (s.skipIf c)) (hc : c = true ↔ p) :
    ∃ t, exec i s = .next t ∧ PcPlus s t (if p then 4 else 2) ∧ Frame s t [.pc] [] :=
  ⟨_, he, skipIf_pc hc, advanceBy_frame s _⟩

/-- Settles O35: both forms skip on `==`, whose value is equality of the operands. -/
theorem skipIfEqual : Obligations.SkipIfEqual := by
  intro x y kk g s
  exact ⟨decode_wordXKK_seImm x kk, decode_wordXYN_seReg x y g,
    skips_of_exec_eq_skipIf rfl beq_iff_eq, skips_of_exec_eq_skipIf rfl beq_iff_eq⟩

/-- Settles O36: both forms skip on `!=`, whose value is difference of the operands. -/
theorem skipIfNotEqual : Obligations.SkipIfNotEqual := by
  intro x y kk g s
  exact ⟨decode_wordXKK_sneImm x kk, decode_wordXYN_sneReg x y g,
    skips_of_exec_eq_skipIf rfl bne_iff_ne, skips_of_exec_eq_skipIf rfl bne_iff_ne⟩

end Machine
end Sys2Proof
end

section

/-! # Register loads, arithmetic and logic: what each writes to Vx and VF (42_alu.md) -/

namespace Sys2Proof

/-! ### The words of the family -/

theorem decode_wordXKK_ldImm (x : RegIdx) (kk : Byte) : decode (wordXKK 0x6 x kk) = .ok (.ldImm x kk) := by
  rw [decode_of_op6 _ (fieldOp_wordXKK _ _ _), fieldX_wordXKK, fieldKK_wordXKK]

/-- In family 8 the low nibble selects the operation and the other two name its registers (R71). -/
theorem decode_wordXYN_family8 {n : Nibble} {mk : RegIdx → RegIdx → Instr}
    (h : ∀ w, fieldN w = n → decodeFamily8 w = .ok (mk (fieldX w) (fieldY w))) (x y : RegIdx) :
    decode (wordXYN 0x8 x y n) = .ok (mk x y) := by
  rw [decode_of_op8 _ (fieldOp_wordXYN _ _ _ _), h _ (fieldN_wordXYN _ _ _ _), fieldX_wordXYN, fieldY_wordXYN]

theorem decode_wordXYN_ldReg : ∀ x y, decode (wordXYN 0x8 x y 0x0) = .ok (.ldReg x y) :=
  decode_wordXYN_family8 fun _ h => by simp [decodeFamily8, h]

theorem decode_wordXYN_orReg : ∀ x y, decode (wordXYN 0x8 x y 0x1) = .ok (.orReg x y) :=
  decode_wordXYN_family8 fun _ h => by simp [decodeFamily8, h]

theorem decode_wordXYN_andReg : ∀ x y, decode (wordXYN 0x8 x y 0x2) = .ok (.andReg x y) :=
  decode_wordXYN_family8 fun _ h => by simp [decodeFamily8, h]

theorem decode_wordXYN_xorReg : ∀ x y, decode (wordXYN 0x8 x y 0x3) = .ok (.xorReg x y) :=
  decode_wordXYN_family8 fun _ h => by simp [decodeFamily8, h]

theorem decode_wordXYN_addReg : ∀ x y, decode (wordXYN 0x8 x y 0x4) = .ok (.addReg x y) :=
  decode_wordXYN_family8 fun _ h => by simp [decodeFamily8, h]

theorem decode_wordXYN_sub : ∀ x y, decode (wordXYN 0x8 x y 0x5) = .ok (.sub x y) :=
  decode_wordXYN_family8 fun _ h => by simp [decodeFamily8, h]

theorem decode_wordXYN_shr : ∀ x y, decode (wordXYN 0x8 x y 0x6) = .ok (.shr x y) :=
  decode_wordXYN_family8 fun _ h => by simp [decodeFamily8, h]

theorem decode_wordXYN_shl : ∀ x y, decode (wordXYN 0x8 x y 0xE) = .ok (.shl x y) :=
  decode_wordXYN_family8 fun _ h => by simp [decodeFamily8, h]

namespace Machine

/-! ### A result without a flag (R100, R102) -/

/-- An instruction whose arm writes `b` to Vx and advances changes Vx and PC alone. -/
theorem loads_of_exec_eq_setV {i : Instr} {s : State} {x : RegIdx} {b : Byte}
    (he : exec i s = .next (s.setV x b).advance) :
    ∃ t, exec i s = .next t ∧ t.getV x = b ∧ PcPlus s t 2 ∧ Frame s t [.pc] [x] :=
  ⟨_, he, getV_setV_self s x b, rfl, (setV_frame s x b).advanceBy 2⟩

/-- Settles O38: both arms are one write of Vx. -/
theorem loadRegister : Obligations.LoadRegister := by
  intro x y kk s
  exact ⟨decode_wordXKK_ldImm x kk, decode_wordXYN_ldReg x y, loads_of_exec_eq_setV rfl, loads_of_exec_eq_setV rfl⟩

/-! ### A result and its flag (R30, R99) -/

/-- An instruction whose arm writes `b` to Vx, then the flag `c` to VF, and advances: VF ends as the flag whatever x
is, and nothing else changes. -/
theorem flags_of_exec_eq_setVFlag {i : Instr} {s : State} {x : RegIdx} {b : Byte} {c : Bool}
    (he : exec i s = .next (s.setVFlag x b c).advance) :
    ∃ t, exec i s = .next t ∧ (x ≠ 0xF → t.getV x = b) ∧ t.getV 0xF = flagByte c ∧ PcPlus s t 2 ∧
      Frame s t [.pc] [x, 0xF] :=
  ⟨_, he, setVFlag_result s b c, setVFlag_flag s x b c, rfl, (setVFlag_frame s x b c).advanceBy 2⟩

theorem flagByte_eq_ite {c : Bool} {p : Prop} [Decidable p] (h : c = true ↔ p) :
    flagByte c = if p then 1 else 0 :=
  if_congr h rfl rfl

theorem carryOf_eq_true_iff (a b : Byte) : carryOf a b = true ↔ 255 < a.toNat + b.toNat := decide_eq_true_iff

theorem noBorrow_eq_true_iff (a b : Byte) : noBorrow a b = true ↔ b.toNat ≤ a.toNat := decide_eq_true_iff

/-- A flagged result with its value as a number and its flag as a condition. -/
theorem arith_of_exec_eq_setVFlag {i : Instr} {s : State} {x : RegIdx} {b : Byte} {c : Bool} {r : Nat} {p : Prop}
    [Decidable p] (he : exec i s = .next (s.setVFlag x b c).advance) (hb : b.toNat = r) (hc : c = true ↔ p) :
    ∃ t, exec i s = .next t ∧ (x ≠ 0xF → (t.getV x).toNat = r) ∧ t.getV 0xF = (if p then 1 else 0) ∧ PcPlus s t 2 ∧
      Frame s t [.pc] [x, 0xF] := by
  obtain ⟨t, he, hres, hflag, hpc, hframe⟩ := flags_of_exec_eq_setVFlag he
  exact ⟨t, he, fun hx => by rw [hres hx, hb], hflag.trans (flagByte_eq_ite hc), hpc, hframe⟩

/-- Settles O41: sum and carry are both computed from the old operands. -/
theorem addSetsCarry : Obligations.AddSetsCarry := by
  intro x y s
  exact ⟨decode_wordXYN_addReg x y,
    arith_of_exec_eq_setVFlag rfl (trunc8_toNat _) (carryOf_eq_true_iff (s.getV x) (s.getV y))⟩

/-- Settles O42: the flag is `noBorrow` of the old operands, minuend Vx. -/
theorem subSetsNotBorrow : Obligations.SubSetsNotBorrow := by
  intro x y s
  exact ⟨decode_wordXYN_sub x y,
    arith_of_exec_eq_setVFlag rfl (trunc8_toNat _) (noBorrow_eq_true_iff (s.getV x) (s.getV y))⟩

/-! ### The shifts (R109, R110) -/

theorem shiftOperand_eq {s : State} {x y : RegIdx} {v : Byte} (hvx : s.cfg.shiftSrc = .vx → v = s.getV x)
    (hvy : s.cfg.shiftSrc = .vy → v = s.getV y) : s.shiftOperand x y = v := by
  unfold State.shiftOperand
  split
  next h => exact (hvx h).symm
  next h => exact (hvy h).symm

theorem flagByte_toNat (c : Bool) : (flagByte c).toNat = c.toNat := by
  cases c <;> rfl

theorem flagByte_shiftedOutRight_toNat (b : Byte) : (flagByte (shiftedOutRight b)).toNat = b.toNat % 2 := by
  rw [flagByte_toNat, shiftedOutRight, BitVec.getLsbD, Nat.toNat_testBit, pow_zero, Nat.div_one]

/-- Bit 7 is the top bit of a byte: above it nothing is left of the quotient. -/
theorem flagByte_shiftedOutLeft_toNat (b : Byte) : (flagByte (shiftedOutLeft b)).toNat = b.toNat / 128 := by
  rw [flagByte_toNat, shiftedOutLeft, BitVec.getLsbD, Nat.toNat_testBit]
  have := b.isLt
  omega

theorem byte_ushiftRight_one_toNat (b : Byte) : (b >>> 1).toNat = b.toNat / 2 := by
  rw [BitVec.toNat_ushiftRight, Nat.shiftRight_one]

theorem byte_shiftLeft_one_toNat (b : Byte) : (b <<< 1).toNat = b.toNat * 2 % 256 := by
  rw [BitVec.toNat_shiftLeft, Nat.shiftLeft_eq, pow_one]

/-- A flagged result with both its value and its flag as numbers. -/
theorem shifts_of_exec_eq_setVFlag {i : Instr} {s : State} {x : RegIdx} {b : Byte} {c : Bool} {r f : Nat}
    (he : exec i s = .next (s.setVFlag x b c).advance) (hb : b.toNat = r) (hc : (flagByte c).toNat = f) :
    ∃ t, exec i s = .next t ∧ (x ≠ 0xF → (t.getV x).toNat = r) ∧ (t.getV 0xF).toNat = f ∧ PcPlus s t 2 ∧
      Frame s t [.pc] [x, 0xF] := by
  obtain ⟨t, he, hres, hflag, hpc, hframe⟩ := flags_of_exec_eq_setVFlag he
  exact ⟨t, he, fun hx => by rw [hres hx, hb], by rw [hflag, hc], hpc, hframe⟩

/-- Settles O44: result and flag are both computed from the operand that P_SHIFT_SRC names. -/
theorem shiftsSetBitShiftedOut : Obligations.ShiftsSetBitShiftedOut := by
  intro x y s v hvx hvy
  obtain rfl : s.shiftOperand x y = v := shiftOperand_eq hvx hvy
  exact ⟨decode_wordXYN_shr x y, decode_wordXYN_shl x y,
    shifts_of_exec_eq_setVFlag rfl (byte_ushiftRight_one_toNat _) (flagByte_shiftedOutRight_toNat _),
    shifts_of_exec_eq_setVFlag rfl (byte_shiftLeft_one_toNat _) (flagByte_shiftedOutLeft_toNat _)⟩

/-! ### The logic operations, by P_LOGIC_VF (R103 to R105) -/

theorem setVLogic_of_unchanged {s : State} (x : RegIdx) (b : Byte) (h : s.cfg.logicVf = .unchanged) :
    s.setVLogic x b = s.setV x b := by
  rw [State.setVLogic, h]

/-- Under Reset a logic result is a result with the flag 0. -/
theorem setVLogic_of_reset {s : State} (x : RegIdx) (b : Byte) (h : s.cfg.logicVf = .reset) :
    s.setVLogic x b = s.setVFlag x b false := by
  rw [State.setVLogic, h]
  rfl

/-- An instruction whose arm writes a logic result and advances is a plain load of Vx under Unchanged, and one with the
flag 0 under Reset. -/
theorem logic_of_exec_eq_setVLogic {i : Instr} {s : State} {x : RegIdx} {b : Byte}
    (he : exec i s = .next (s.setVLogic x b).advance) :
    ∃ t, exec i s = .next t ∧ PcPlus s t 2 ∧
      (s.cfg.logicVf = .unchanged → t.getV x = b ∧ Frame s t [.pc] [x]) ∧
      (s.cfg.logicVf = .reset → t.getV 0xF = 0 ∧ (x ≠ 0xF → t.getV x = b) ∧ Frame s t [.pc] [x, 0xF]) := by
  cases hp : s.cfg.logicVf with
  | unchanged =>
    rw [setVLogic_of_unchanged x b hp] at he
    obtain ⟨t, he, hres, hpc, hframe⟩ := loads_of_exec_eq_setV he
    exact ⟨t, he, hpc, fun _ => ⟨hres, hframe⟩, nofun⟩
  | reset =>
    rw [setVLogic_of_reset x b hp] at he
    obtain ⟨t, he, hres, hflag, hpc, hframe⟩ := flags_of_exec_eq_setVFlag he
    exact ⟨t, he, hpc, nofun, fun _ => ⟨hflag, hres, hframe⟩⟩

/-- Settles O40: the three arms are one logic write each. -/
theorem logicOperations : Obligations.LogicOperations := by
  intro x y s
  refine ⟨decode_wordXYN_orReg x y, decode_wordXYN_andReg x y, decode_wordXYN_xorReg x y, ?_⟩
  simp only [List.forall_mem_cons]
  exact ⟨logic_of_exec_eq_setVLogic rfl, logic_of_exec_eq_setVLogic rfl, logic_of_exec_eq_setVLogic rfl, nofun⟩

end Machine
end Sys2Proof
end

section

/-! # The index register: what LD I writes to it (43_index_memory.md R114) -/

namespace Sys2Proof

theorem decode_wordNNN_ldI (nnn : Addr12) : decode (wordNNN 0xA nnn) = .ok (.ldI nnn) := by
  rw [decode_of_opA _ (fieldOp_wordNNN _ _), fieldNNN_wordNNN]

namespace Machine

/-- An instruction whose arm writes `w` to I and advances changes I and PC alone. -/
theorem loadsIndex_of_exec_eq_setI {i : Instr} {s : State} {w : Word} (he : exec i s = .next (s.setI w).advance) :
    ∃ t, exec i s = .next t ∧ t.i = w ∧ PcPlus s t 2 ∧ Frame s t [.pc, .i] [] :=
  ⟨_, he, rfl, rfl, (setI_frame s w).advanceBy 2⟩

/-- Settles O46: the arm is one write of I, and zero extension keeps the address. -/
theorem loadIndex : Obligations.LoadIndex := by
  intro nnn s
  obtain ⟨t, he, hi, hpc, hframe⟩ := loadsIndex_of_exec_eq_setI (i := .ldI nnn) (s := s) rfl
  have haddr : t.i.toNat = nnn.toNat := by
    rw [hi, BitVec.toNat_setWidth_of_le (by decide)]
  exact ⟨decode_wordNNN_ldI nnn, t, he, haddr, hpc, hframe⟩

end Machine
end Sys2Proof
end

section

/-! # The display: what CLS leaves of it (44_display.md R123) -/

namespace Sys2Proof

theorem decode_clsWord : decode 0x00E0 = .ok .cls := by decide

namespace Machine

/-- An instruction whose arm replaces the display by `d` and advances changes the display and PC alone. -/
theorem displays_of_exec_eq_setDisp {i : Instr} {s : State} {d : Display}
    (he : exec i s = .next { s with disp := d }.advance) :
    ∃ t, exec i s = .next t ∧ t.disp = d ∧ PcPlus s t 2 ∧ Frame s t [.pc, .disp] [] :=
  ⟨_, he, rfl, rfl, (setDisp_frame s d).advanceBy 2⟩

/-- Settles O52: the arm replaces the display by the blank one, where every pixel is off. -/
theorem clearDisplay : Obligations.ClearDisplay := by
  refine ⟨decode_clsWord, fun s => ?_⟩
  obtain ⟨t, he, hdisp, hpc, hframe⟩ := displays_of_exec_eq_setDisp (i := .cls) (s := s) (d := blankDisplay) rfl
  have hoff (c : Place) : pixel t.disp c = false := by
    rw [hdisp, pixel_blankDisplay]
  exact ⟨t, he, hoff, hpc, hframe⟩

end Machine
end Sys2Proof
end

section

/-! # The timers: what reading and writing them changes, and the tone (45_timers_input.md R126 to R128, R41) -/

namespace Sys2Proof

/-! ### The words of the family -/

/-- In family F the low byte selects the operation and the second nibble names its register (R71). -/
theorem decode_wordXKK_familyF {kk : Byte} {mk : RegIdx → Instr}
    (h : ∀ w, fieldKK w = kk → decodeFamilyF w = .ok (mk (fieldX w))) (x : RegIdx) :
    decode (wordXKK 0xF x kk) = .ok (mk x) := by
  rw [decode_of_opF _ (fieldOp_wordXKK _ _ _), h _ (fieldKK_wordXKK _ _ _), fieldX_wordXKK]

theorem decode_wordXKK_ldVxDt : ∀ x, decode (wordXKK 0xF x 0x07) = .ok (.ldVxDt x) :=
  decode_wordXKK_familyF fun _ h => by simp [decodeFamilyF, h]

theorem decode_wordXKK_ldDtVx : ∀ x, decode (wordXKK 0xF x 0x15) = .ok (.ldDtVx x) :=
  decode_wordXKK_familyF fun _ h => by simp [decodeFamilyF, h]

theorem decode_wordXKK_ldStVx : ∀ x, decode (wordXKK 0xF x 0x18) = .ok (.ldStVx x) :=
  decode_wordXKK_familyF fun _ h => by simp [decodeFamilyF, h]

namespace Machine

/-! ### Writes of one timer -/

theorem setDt_frame (s : State) (b : Byte) : Frame s { s with dt := b } [.dt] [] :=
  ⟨fun _ _ => rfl, fun p hp => by cases p <;> simp_all [Part.Same, State.byteAt, State.isPressed]⟩

theorem setSt_frame (s : State) (b : Byte) : Frame s { s with st := b } [.st] [] :=
  ⟨fun _ _ => rfl, fun p hp => by cases p <;> simp_all [Part.Same, State.byteAt, State.isPressed]⟩

/-- An instruction whose arm writes `b` to DT and advances changes DT and PC alone. -/
theorem loadsDelay_of_exec_eq_setDt {i : Instr} {s : State} {b : Byte}
    (he : exec i s = .next { s with dt := b }.advance) :
    ∃ t, exec i s = .next t ∧ t.dt = b ∧ PcPlus s t 2 ∧ Frame s t [.pc, .dt] [] :=
  ⟨_, he, rfl, rfl, (setDt_frame s b).advanceBy 2⟩

/-- An instruction whose arm writes `b` to ST and advances changes ST and PC alone. -/
theorem loadsSound_of_exec_eq_setSt {i : Instr} {s : State} {b : Byte}
    (he : exec i s = .next { s with st := b }.advance) :
    ∃ t, exec i s = .next t ∧ t.st = b ∧ PcPlus s t 2 ∧ Frame s t [.pc, .st] [] :=
  ⟨_, he, rfl, rfl, (setSt_frame s b).advanceBy 2⟩

theorem tone_eq_true_iff (s : State) : s.tone = true ↔ s.st ≠ 0 := bne_iff_ne

/-- Settles O56: each arm is one write, of Vx, of DT or of ST, and the tone reads the ST just written. -/
theorem timerLoads : Obligations.TimerLoads := by
  intro x s
  obtain ⟨t, he, hst, hpc, hframe⟩ := loadsSound_of_exec_eq_setSt (i := .ldStVx x) (s := s) rfl
  have htone : t.tone = true ↔ s.getV x ≠ 0 := by
    rw [tone_eq_true_iff, hst]
  exact ⟨decode_wordXKK_ldVxDt x, decode_wordXKK_ldDtVx x, decode_wordXKK_ldStVx x, loads_of_exec_eq_setV rfl,
    loadsDelay_of_exec_eq_setDt rfl, t, he, hst, htone, hpc, hframe⟩

end Machine
end Sys2Proof
end

section

/-! # The load: what a legal machine fetches first (70_reset_and_hazards.md R154, R155) -/

namespace Sys2Proof.Machine

/-- Under a legal FONT_BASE the font ends below LOAD_OFFSET, so an image that fits never overlaps it. -/
theorem load_of_ok {s : State} {image : List Byte} (init : List Byte) (hok : s.cfg.ok) (hlen : image.length ≤ 3584) :
    s.load image init = s.install (withInitMem s.cfg init) image := by
  rcases load_eq s image init with ⟨hrefused, -⟩ | ⟨-, hload⟩
  · have := (loadRefused_iff _ _).1 hrefused
    omega
  · exact hload

/-- From LOAD_OFFSET on, an installed memory reads the image, then INIT_MEM: a legal font lies below. -/
theorem byteAt_install_loadOffset_add {s : State} (image init : List Byte) (hok : s.cfg.ok) (k : Nat) :
    (s.install (withInitMem s.cfg init) image).byteAt (loadOffset + k) =
      image.getD k (init.getD (loadOffset + k) 0) := by
  have habove : ¬ loadOffset + k < s.cfg.fontBase + 80 := by
    unfold loadOffset
    omega
  have hfont : inFont s.cfg (loadOffset + k) = false := by
    simp [inFont, habove]
  rw [byteAt_install, hfont]
  by_cases hk : k < image.length
  · simp [hk]
  · simp [hk]

/-- Settles O23: a legal load is not refused, it leaves PC at 0x200, and both fetched bytes lie above the font. -/
theorem firstFetchAfterLoadIsTheImage : Obligations.FirstFetchAfterLoadIsTheImage := by
  intro s image init hok hlen
  have hpc : (s.install (withInitMem s.cfg init) image).pc.toNat = loadOffset := rfl
  have hfetch := fetch_of_lt (s.install (withInitMem s.cfg init) image) (by rw [hpc]; decide)
  rw [hpc] at hfetch
  rw [load_of_ok init hok hlen]
  refine ⟨_, hfetch, ?_, ?_⟩
  · rw [hiByte_composeWord]
    exact byteAt_install_loadOffset_add image init hok 0
  · rw [loByte_composeWord]
    exact byteAt_install_loadOffset_add image init hok 1

end Sys2Proof.Machine
end

section

/-! # The encoding: decode and encode undo each other (30_encoding.md R70 to R73) -/

namespace Sys2Proof

/-! ### The words of the operations that have no lemma above -/

theorem decode_retWord : decode 0x00EE = .ok .ret := by decide

theorem decode_wordNNN_jp (nnn : Addr12) : decode (wordNNN 0x1 nnn) = .ok (.jp nnn) := by
  rw [decode_of_op1 _ (fieldOp_wordNNN _ _), fieldNNN_wordNNN]

theorem decode_wordNNN_call (nnn : Addr12) : decode (wordNNN 0x2 nnn) = .ok (.call nnn) := by
  rw [decode_of_op2 _ (fieldOp_wordNNN _ _), fieldNNN_wordNNN]

theorem decode_wordNNN_jpV0 (nnn : Addr12) : decode (wordNNN 0xB nnn) = .ok (.jpV0 nnn) := by
  rw [decode_of_opB _ (fieldOp_wordNNN _ _), fieldNNN_wordNNN]

theorem decode_wordXKK_addImm (x : RegIdx) (kk : Byte) : decode (wordXKK 0x7 x kk) = .ok (.addImm x kk) := by
  rw [decode_of_op7 _ (fieldOp_wordXKK _ _ _), fieldX_wordXKK, fieldKK_wordXKK]

theorem decode_wordXKK_rnd (x : RegIdx) (kk : Byte) : decode (wordXKK 0xC x kk) = .ok (.rnd x kk) := by
  rw [decode_of_opC _ (fieldOp_wordXKK _ _ _), fieldX_wordXKK, fieldKK_wordXKK]

theorem decode_wordXYN_drw (x y : RegIdx) (n : Nibble) : decode (wordXYN 0xD x y n) = .ok (.drw x y n) := by
  rw [decode_of_opD _ (fieldOp_wordXYN _ _ _ _), fieldX_wordXYN, fieldY_wordXYN, fieldN_wordXYN]

theorem decode_wordXYN_subn : ∀ x y, decode (wordXYN 0x8 x y 0x7) = .ok (.subn x y) :=
  decode_wordXYN_family8 fun _ h => by simp [decodeFamily8, h]

/-- In family E the low byte selects the operation and the second nibble names its register (R71). -/
theorem decode_wordXKK_familyE {kk : Byte} {mk : RegIdx → Instr}
    (h : ∀ w, fieldKK w = kk → decodeFamilyE w = .ok (mk (fieldX w))) (x : RegIdx) :
    decode (wordXKK 0xE x kk) = .ok (mk x) := by
  rw [decode_of_opE _ (fieldOp_wordXKK _ _ _), h _ (fieldKK_wordXKK _ _ _), fieldX_wordXKK]

theorem decode_wordXKK_skp : ∀ x, decode (wordXKK 0xE x 0x9E) = .ok (.skp x) :=
  decode_wordXKK_familyE fun _ h => by simp [decodeFamilyE, h]

theorem decode_wordXKK_sknp : ∀ x, decode (wordXKK 0xE x 0xA1) = .ok (.sknp x) :=
  decode_wordXKK_familyE fun _ h => by simp [decodeFamilyE, h]

theorem decode_wordXKK_ldVxK : ∀ x, decode (wordXKK 0xF x 0x0A) = .ok (.ldVxK x) :=
  decode_wordXKK_familyF fun _ h => by simp [decodeFamilyF, h]

theorem decode_wordXKK_addIVx : ∀ x, decode (wordXKK 0xF x 0x1E) = .ok (.addIVx x) :=
  decode_wordXKK_familyF fun _ h => by simp [decodeFamilyF, h]

theorem decode_wordXKK_ldFVx : ∀ x, decode (wordXKK 0xF x 0x29) = .ok (.ldFVx x) :=
  decode_wordXKK_familyF fun _ h => by simp [decodeFamilyF, h]

theorem decode_wordXKK_ldBVx : ∀ x, decode (wordXKK 0xF x 0x33) = .ok (.ldBVx x) :=
  decode_wordXKK_familyF fun _ h => by simp [decodeFamilyF, h]

theorem decode_wordXKK_ldMemVx : ∀ x, decode (wordXKK 0xF x 0x55) = .ok (.ldMemVx x) :=
  decode_wordXKK_familyF fun _ h => by simp [decodeFamilyF, h]

theorem decode_wordXKK_ldVxMem : ∀ x, decode (wordXKK 0xF x 0x65) = .ok (.ldVxMem x) :=
  decode_wordXKK_familyF fun _ h => by simp [decodeFamilyF, h]

/-! ### Decode of encode -/

theorem wellFormed_sys_iff {nnn : Addr12} : (Instr.sys nnn).wellFormed = true ↔ nnn ≠ 0x0E0 ∧ nnn ≠ 0x0EE := by
  simp [Instr.wellFormed]

/-- The decoder reads every well-formed instruction back from its word. -/
theorem decode_encode {i : Instr} (hwf : i.wellFormed = true) : decode (encode i) = .ok i := by
  cases i with
  | sys nnn =>
    obtain ⟨hcls, hret⟩ := wellFormed_sys_iff.1 hwf
    exact decode_wordNNN_sys hcls hret
  | cls => exact decode_clsWord
  | ret => exact decode_retWord
  | jp nnn => exact decode_wordNNN_jp nnn
  | call nnn => exact decode_wordNNN_call nnn
  | seImm x kk => exact decode_wordXKK_seImm x kk
  | sneImm x kk => exact decode_wordXKK_sneImm x kk
  | seReg x y g => exact decode_wordXYN_seReg x y g
  | ldImm x kk => exact decode_wordXKK_ldImm x kk
  | addImm x kk => exact decode_wordXKK_addImm x kk
  | ldReg x y => exact decode_wordXYN_ldReg x y
  | orReg x y => exact decode_wordXYN_orReg x y
  | andReg x y => exact decode_wordXYN_andReg x y
  | xorReg x y => exact decode_wordXYN_xorReg x y
  | addReg x y => exact decode_wordXYN_addReg x y
  | sub x y => exact decode_wordXYN_sub x y
  | shr x y => exact decode_wordXYN_shr x y
  | subn x y => exact decode_wordXYN_subn x y
  | shl x y => exact decode_wordXYN_shl x y
  | sneReg x y g => exact decode_wordXYN_sneReg x y g
  | ldI nnn => exact decode_wordNNN_ldI nnn
  | jpV0 nnn => exact decode_wordNNN_jpV0 nnn
  | rnd x kk => exact decode_wordXKK_rnd x kk
  | drw x y n => exact decode_wordXYN_drw x y n
  | skp x => exact decode_wordXKK_skp x
  | sknp x => exact decode_wordXKK_sknp x
  | ldVxDt x => exact decode_wordXKK_ldVxDt x
  | ldVxK x => exact decode_wordXKK_ldVxK x
  | ldDtVx x => exact decode_wordXKK_ldDtVx x
  | ldStVx x => exact decode_wordXKK_ldStVx x
  | addIVx x => exact decode_wordXKK_addIVx x
  | ldFVx x => exact decode_wordXKK_ldFVx x
  | ldBVx x => exact decode_wordXKK_ldBVx x
  | ldMemVx x => exact decode_wordXKK_ldMemVx x
  | ldVxMem x => exact decode_wordXKK_ldVxMem x

/-- The decoder composes the two bytes that encodeBytes lays out (R58), and leaves the bytes after them. -/
theorem decodeBytes_encodeBytes_append {i : Instr} (hwf : i.wellFormed = true) (rest : List Byte) :
    decodeBytes (encodeBytes i ++ rest) = .ok (i, rest) := by
  simp [encodeBytes, decodeBytes, decode_encode hwf]

/-- Settles O1: the word is read back instruction by instruction, and the bytes compose to the word. -/
theorem decodeOfEncodeIsTheInstruction : Obligations.DecodeOfEncodeIsTheInstruction := by
  intro i rest hwf
  exact ⟨decode_encode hwf, decodeBytes_encodeBytes_append hwf rest⟩

/-! ### Encode of decode -/

/-- The instruction `i` is well-formed and its word is `w`. -/
def IsWordOf (w : Word) (i : Instr) : Prop := i.wellFormed = true ∧ encode i = w

theorem wordNNN_of_fieldOp {w : Word} {op : Nibble} (h : fieldOp w = op) : wordNNN op (fieldNNN w) = w := by
  rw [← h, wordNNN_fields]

theorem wordXKK_of_fields {w : Word} {op : Nibble} {kk : Byte} (h : fieldOp w = op) (hkk : fieldKK w = kk) :
    wordXKK op (fieldX w) kk = w := by
  rw [← h, ← hkk, wordXKK_fields]

theorem wordXYN_of_fields {w : Word} {op n : Nibble} (h : fieldOp w = op) (hn : fieldN w = n) :
    wordXYN op (fieldX w) (fieldY w) n = w := by
  rw [← h, ← hn, wordXYN_fields]

/-- Family 0 keeps its word: SYS never takes the words of CLS and RET, since those were tested first. -/
theorem isWordOf_decodeFamily0 {w : Word} (h : fieldOp w = 0x0) : IsWordOf w (decodeFamily0 w) := by
  have hword := wordNNN_of_fieldOp h
  unfold decodeFamily0
  split
  next hcls => exact ⟨rfl, hcls.symm⟩
  next hcls =>
    split
    next hret => exact ⟨rfl, hret.symm⟩
    next hret =>
      refine ⟨wellFormed_sys_iff.2 ⟨fun e => hcls ?_, fun e => hret ?_⟩, hword⟩
      · rw [← hword, e]
        rfl
      · rw [← hword, e]
        rfl

theorem isWordOf_of_decodeFamily8 {w : Word} {i : Instr} (h : fieldOp w = 0x8) (hd : decodeFamily8 w = .ok i) :
    IsWordOf w i := by
  unfold decodeFamily8 at hd
  split at hd
  case h_10 => cases hd
  all_goals
    cases hd
    exact ⟨rfl, wordXYN_of_fields h ‹_›⟩

theorem isWordOf_of_decodeFamilyE {w : Word} {i : Instr} (h : fieldOp w = 0xE) (hd : decodeFamilyE w = .ok i) :
    IsWordOf w i := by
  unfold decodeFamilyE at hd
  split at hd
  case h_3 => cases hd
  all_goals
    cases hd
    exact ⟨rfl, wordXKK_of_fields h ‹_›⟩

theorem isWordOf_of_decodeFamilyF {w : Word} {i : Instr} (h : fieldOp w = 0xF) (hd : decodeFamilyF w = .ok i) :
    IsWordOf w i := by
  unfold decodeFamilyF at hd
  split at hd
  case h_10 => cases hd
  all_goals
    cases hd
    exact ⟨rfl, wordXKK_of_fields h ‹_›⟩

/-- The decoder loses no bit: in each format the fields it reads are all of the word. -/
theorem isWordOf_of_decode {w : Word} {i : Instr} (hd : decode w = .ok i) : IsWordOf w i := by
  unfold decode at hd
  split at hd
  case h_1 h => cases hd; exact isWordOf_decodeFamily0 h
  case h_9 h => exact isWordOf_of_decodeFamily8 h hd
  case h_15 h => exact isWordOf_of_decodeFamilyE h hd
  case h_16 =>
    exact isWordOf_of_decodeFamilyF (nibble_eq_F_of_notMem _ (by simp_all)) hd
  case h_2 h | h_3 h | h_11 h | h_12 h => cases hd; exact ⟨rfl, wordNNN_of_fieldOp h⟩
  case h_4 h | h_5 h | h_7 h | h_8 h | h_13 h => cases hd; exact ⟨rfl, wordXKK_of_fields h rfl⟩
  case h_6 h | h_10 h | h_14 h => cases hd; exact ⟨rfl, wordXYN_of_fields h rfl⟩

/-- Settles O2: the decoder keeps every field of the word it reads. -/
theorem decodedWordIsTheInstructionsWord : Obligations.DecodedWordIsTheInstructionsWord :=
  fun _ _ hd => isWordOf_of_decode hd

theorem encode_injOn_wellFormed {i j : Instr} (hi : i.wellFormed = true) (hj : j.wellFormed = true)
    (h : encode i = encode j) : i = j := by
  have hd := decode_encode hi
  rw [h, decode_encode hj] at hd
  exact (Except.ok.inj hd).symm

end Sys2Proof
end

section

/-! # The encoding counted, example words, and the assembler's lines (30_encoding.md R70 to R77) -/

namespace Sys2Proof.Machine

/-! ### How many words decode (R72) -/

theorem decodes_eq_true_iff (w : Word) : decodes w = true ↔ ¬ IllegalWord w := by
  rw [← decode_error_iff_illegalWord]
  unfold decodes
  split <;> simp_all

/-- Whether a word of a family decodes depends on its low byte alone: count the low bytes, once for each x. -/
theorem decodedInFamily_eq {op : Nibble} {q : Byte → Bool}
    (h : ∀ x kk, decodes (wordXKK op x kk) = q kk) :
    decodedInFamily op = 16 * (List.range 256).countP fun kk => q (BitVec.ofNat 8 kk) := by
  simp only [decodedInFamily, h, List.map_const', List.sum_replicate, List.length_range, smul_eq_mul]

theorem decodedInFamily_of_notMem {op : Nibble} (h : op ∉ [0x8, 0xE, (0xF : Nibble)]) :
    decodedInFamily op = 4096 := by
  have hall (x : RegIdx) (kk : Byte) : decodes (wordXKK op x kk) = true := by
    rw [decodes_eq_true_iff]
    simp_all [IllegalWord]
  rw [decodedInFamily_eq hall]
  simp

/-- The low byte's low nibble is one of the nine selectors of family 8. -/
def selectsFamily8 (kk : Byte) : Bool :=
  kk.extractLsb' 0 4 ∉ [0x8, 0x9, 0xA, 0xB, 0xC, 0xD, (0xF : Nibble)]

/-- The low byte is one of the two selectors of family E. -/
def selectsFamilyE (kk : Byte) : Bool := kk ∈ [0x9E, (0xA1 : Byte)]

/-- The low byte is one of the nine selectors of family F. -/
def selectsFamilyF (kk : Byte) : Bool :=
  kk ∈ [0x07, 0x0A, 0x15, 0x18, 0x1E, 0x29, 0x33, 0x55, (0x65 : Byte)]

theorem decodes_family8 (x : RegIdx) (kk : Byte) : decodes (wordXKK 0x8 x kk) = selectsFamily8 kk := by
  rw [Bool.eq_iff_iff, decodes_eq_true_iff]
  simp [IllegalWord, selectsFamily8]

theorem decodes_familyE (x : RegIdx) (kk : Byte) : decodes (wordXKK 0xE x kk) = selectsFamilyE kk := by
  rw [Bool.eq_iff_iff, decodes_eq_true_iff]
  simp [IllegalWord, selectsFamilyE]
  tauto

theorem decodes_familyF (x : RegIdx) (kk : Byte) : decodes (wordXKK 0xF x kk) = selectsFamilyF kk := by
  rw [Bool.eq_iff_iff, decodes_eq_true_iff]
  simp [IllegalWord, selectsFamilyF]
  tauto

theorem decodedInFamily_8 : decodedInFamily 0x8 = 9 * 256 := by
  rw [decodedInFamily_eq decodes_family8]
  decide +kernel

theorem decodedInFamily_E : decodedInFamily 0xE = 2 * 16 := by
  rw [decodedInFamily_eq decodes_familyE]
  decide +kernel

theorem decodedInFamily_F : decodedInFamily 0xF = 9 * 16 := by
  rw [decodedInFamily_eq decodes_familyF]
  decide +kernel

/-- Thirteen families decode whole; 8, E and F by their selectors. -/
theorem sum_decodedInFamily : (allFamilies.map decodedInFamily).sum = 55728 := by
  have hall : allFamilies =
      [0x0, 0x1, 0x2, 0x3, 0x4, 0x5, 0x6, 0x7, 0x8, 0x9, 0xA, 0xB, 0xC, 0xD, 0xE, 0xF] := by decide
  have hcount : allFamilies.map decodedInFamily = allFamilies.map fun op =>
      if op ∉ [0x8, 0xE, (0xF : Nibble)] then 4096 else if op = 0x8 then 9 * 256 else if op = 0xE then 2 * 16
        else 9 * 16 := by
    refine List.map_congr_left fun op _ => ?_
    split
    next h => exact decodedInFamily_of_notMem h
    next h =>
      simp only [List.mem_cons, List.not_mem_nil, or_false, not_not] at h
      obtain rfl | rfl | rfl := h
      · exact decodedInFamily_8
      · exact decodedInFamily_E
      · exact decodedInFamily_F
  rw [hcount]
  decide

/-- Settles O4: a family decodes whole, or by its selectors, which are counted; `decode_encode` tells the words apart. -/
theorem decodableWordsAreCounted : Obligations.DecodableWordsAreCounted := by
  refine ⟨decodedInFamily_of_notMem (by decide), fun op hop => decodedInFamily_of_notMem ?_, decodedInFamily_8,
    decodedInFamily_E, decodedInFamily_F, sum_decodedInFamily, ?_, ?_, ?_, ?_, ?_, ?_⟩
  · revert op
    decide
  · rw [decodedInFamily_8]
  · rw [decodedInFamily_E]
  · rw [decodedInFamily_F]
  · rw [sum_decodedInFamily]
  · exact fun w => ⟨fieldOp w, fieldX w, fieldKK w, (wordXKK_fields w).symm⟩
  · exact fun i j => encode_injOn_wellFormed

/-! ### Example words -/

/-- Settles O5: the written words are evaluated; the words with a free field decode by their family's lemma. -/
theorem exampleWordsDecode : Obligations.ExampleWordsDecode := by
  refine ⟨by decide, by decide, by decide, by decide, by decide, by decide, by decide, by decide, decode_clsWord,
    decode_retWord, decode_wordXYN_seReg 0x1 0x2 0x1, ?_, ?_, by decide, by decide, ?_⟩
  · exact .inr (.inr (by decide))
  · intro x kk hkk
    refine .inr (.inr ?_)
    rw [fieldOp_wordXKK, fieldKK_wordXKK]
    revert kk
    decide
  · exact fun x y n => ⟨decode_wordXYN_seReg x y n, decode_wordXYN_sneReg x y n⟩

/-! ### The assembler (R76, R77) -/

theorem assemble_of_lineInstr {m : Mnemonic} {ops : List Operand} {i : Instr} (h : lineInstr m ops = some i)
    (hwf : i.wellFormed = true) : assemble m ops = some (encode i) := by
  simp [assemble, h, hwf]

theorem assemble_eq_none {m : Mnemonic} {ops : List Operand} (h : lineInstr m ops = none) : assemble m ops = none := by
  simp [assemble, h]

@[simp] theorem lineNNN_toNat (mk : Addr12 → Instr) (n : Addr12) : lineNNN mk n.toNat = some (mk n) := by
  simp [lineNNN]

@[simp] theorem lineX_toNat (mk : RegIdx → Instr) (x : RegIdx) : lineX mk x.toNat = some (mk x) := by
  simp [lineX]

@[simp] theorem lineXKK_toNat (mk : RegIdx → Byte → Instr) (x : RegIdx) (kk : Byte) :
    lineXKK mk x.toNat kk.toNat = some (mk x kk) := by
  simp [lineXKK]

@[simp] theorem lineXY_toNat (mk : RegIdx → RegIdx → Instr) (x y : RegIdx) :
    lineXY mk x.toNat y.toNat = some (mk x y) := by
  simp [lineXY]

@[simp] theorem lineXYN_toNat (mk : RegIdx → RegIdx → Nibble → Instr) (x y : RegIdx) (n : Nibble) :
    lineXYN mk x.toNat y.toNat n.toNat = some (mk x y n) := by
  simp [lineXYN]

theorem lineNNN_of_ge (mk : Addr12 → Instr) {n : Nat} (h : 0x1000 ≤ n) : lineNNN mk n = none := by
  rw [lineNNN, fitField_of_ge h]
  rfl

/-- An instruction's line stands for that instruction: SE Vx, Vy and SNE Vx, Vy with their ignored nibble 0. -/
theorem lineInstr_instrLine {i : Instr} (hse : ∀ x y g, i = .seReg x y g → g = 0)
    (hsne : ∀ x y g, i = .sneReg x y g → g = 0) : lineInstr (instrLine i).1 (instrLine i).2 = some i := by
  cases i with
  | seReg x y g => simp [instrLine, lineInstr, hse x y g rfl]
  | sneReg x y g => simp [instrLine, lineInstr, hsne x y g rfl]
  | _ => simp [instrLine, lineInstr]

theorem lineInstr_num_of_ge {n : Nat} (h : 0x1000 ≤ n) :
    lineInstr .jp [.num n] = none ∧ lineInstr .call [.num n] = none ∧ lineInstr .sys [.num n] = none ∧
      lineInstr .ld [.idx, .num n] = none ∧ lineInstr .jp [.v 0, .num n] = none := by
  simp [lineInstr, lineNNN_of_ge _ h]

theorem lineInstr_v_num_of_ge {r k : Nat} (h : 16 ≤ r ∨ 256 ≤ k) {m : Mnemonic}
    (hm : m ∈ [Mnemonic.ld, .add, .se, .sne, .rnd]) : lineInstr m [.v r, .num k] = none := by
  revert m
  simp [lineInstr, lineXKK_of_ge _ h]

theorem lineInstr_v_of_ge {r : Nat} (h : 16 ≤ r) {m : Mnemonic} (hm : m ∈ [Mnemonic.skp, .sknp, .shr, .shl]) :
    lineInstr m [.v r] = none := by
  revert m
  simp [lineInstr, lineX_of_ge _ h, lineXY_of_ge _ (.inl h)]

theorem lineInstr_v_v_of_ge {r k : Nat} (h : 16 ≤ r ∨ 16 ≤ k) {m : Mnemonic}
    (hm : m ∈ [Mnemonic.se, .sne, .ld, .or, .and, .xor, .add, .sub, .shr, .subn, .shl]) :
    lineInstr m [.v r, .v k] = none := by
  revert m
  simp [lineInstr, lineXY_of_ge _ h]

theorem lineInstr_ld_v_special_of_ge {r : Nat} (h : 16 ≤ r) {o : Operand} (ho : o ∈ [Operand.dt, .key, .memI]) :
    lineInstr .ld [.v r, o] = none := by
  revert o
  simp [lineInstr, lineX_of_ge _ h]

theorem lineInstr_ld_special_v_of_ge {r : Nat} (h : 16 ≤ r) {o : Operand}
    (ho : o ∈ [Operand.dt, .st, .font, .bcd, .memI]) : lineInstr .ld [o, .v r] = none := by
  revert o
  simp [lineInstr, lineX_of_ge _ h]

theorem lineInstr_add_idx_of_ge {r : Nat} (h : 16 ≤ r) : lineInstr .add [.idx, .v r] = none := by
  simp [lineInstr, lineX_of_ge _ h]

/-- JP with a register takes V0 alone. -/
theorem lineInstr_jp_v_of_ge {r : Nat} (n : Nat) (h : 16 ≤ r) : lineInstr .jp [.v r, .num n] = none := by
  obtain ⟨k, rfl⟩ := Nat.exists_eq_succ_of_ne_zero (show r ≠ 0 by omega)
  simp [lineInstr]

theorem lineInstr_drw_of_ge {r k n : Nat} (h : 16 ≤ r ∨ 16 ≤ k ∨ 16 ≤ n) :
    lineInstr .drw [.v r, .v k, .num n] = none := by
  simp [lineInstr, lineXYN_of_ge _ h]

/-- Settles O6: each form of line places its operands in their fields, and answers none where one does not fit. -/
theorem assemblerPlacesFields : Obligations.AssemblerPlacesFields := by
  refine ⟨fun i hwf hse hsne => assemble_of_lineInstr (lineInstr_instrLine hse hsne) hwf, fun x => ?_, fun n hn => ?_,
    fun k n hn m hm => assemble_eq_none (lineInstr_v_num_of_ge (.inr hn) hm),
    fun k l n hn => assemble_eq_none (lineInstr_drw_of_ge (.inr (.inr hn))), fun r k n hr => ?_⟩
  · exact ⟨assemble_of_lineInstr (i := .shr x 0) (lineXY_toNat _ x 0) rfl,
      assemble_of_lineInstr (i := .shl x 0) (lineXY_toNat _ x 0) rfl⟩
  · obtain ⟨hjp, hcall, hsys, hld, hjpV0⟩ := lineInstr_num_of_ge hn
    exact ⟨assemble_eq_none hjp, assemble_eq_none hcall, assemble_eq_none hsys, assemble_eq_none hld,
      assemble_eq_none hjpV0⟩
  · exact ⟨fun m hm => assemble_eq_none (lineInstr_v_of_ge hr hm),
      fun o ho => assemble_eq_none (lineInstr_ld_v_special_of_ge hr ho),
      fun o ho => assemble_eq_none (lineInstr_ld_special_v_of_ge hr ho),
      assemble_eq_none (lineInstr_add_idx_of_ge hr), assemble_eq_none (lineInstr_jp_v_of_ge n hr),
      fun m hm => assemble_eq_none (lineInstr_v_num_of_ge (.inl hr) hm),
      fun m hm => ⟨assemble_eq_none (lineInstr_v_v_of_ge (.inl hr) hm),
        assemble_eq_none (lineInstr_v_v_of_ge (.inr hr) hm)⟩,
      assemble_eq_none (lineInstr_drw_of_ge (.inl hr)), assemble_eq_none (lineInstr_drw_of_ge (.inr (.inl hr)))⟩

end Sys2Proof.Machine
end

section

/-! # Jumps, calls and returns (41_control_flow.md R90 to R92, R97) -/

namespace Sys2Proof.Machine

theorem setStack_frame (s : State) (l : List Word) : Frame s { s with stack := l } [.stack] [] :=
  ⟨fun _ _ => rfl, fun p hp => by cases p <;> simp_all [Part.Same, State.byteAt, State.isPressed]⟩

/-- Setting PC after a change adds PC to what the change may touch. -/
theorem Frame.setPc {s t : State} {ps : List Part} {rs : List RegIdx} (h : Frame s t ps rs) (w : Word) :
    Frame s (t.setPc w) (.pc :: ps) rs :=
  (h.mono (by simp) (by simp)).trans ((setPc_frame t w).mono (by simp) (by simp))

/-! ### RET and CALL -/

theorem exec_ret_of_append {s : State} {older : List Word} {a : Word} (h : s.stack = older ++ [a]) :
    exec .ret s = .next ({ s with stack := older }.setPc a) := by
  simp only [exec, execRet, pop_of_append s h]

theorem exec_ret_of_nil {s : State} (h : s.stack = []) :
    exec .ret s = .next (raise .stackUnderflow (some 0x00EE) s) := by
  simp only [exec, execRet, pop_of_nil s h, raiseIn, encode]

theorem exec_call_of_lt (nnn : Addr12) {s : State} (h : s.stack.length < 16) :
    exec (.call nnn) s =
      .next ({ s with stack := s.stack ++ [trunc16 (s.pc.toNat + 2)] }.setPc (nnn.setWidth 16)) := by
  simp only [exec, execCall, push_of_lt s _ h]

theorem exec_call_of_ge (nnn : Addr12) {s : State} (h : 16 ≤ s.stack.length) :
    exec (.call nnn) s = .next (raise .stackOverflow (some (wordNNN 0x2 nnn)) s) := by
  simp only [exec, execCall, push_of_ge s _ h, raiseIn, encode]

/-- Settles O31: with an entry the arm pops it into PC, with none it raises. -/
theorem retPopsIntoPc : Obligations.RetPopsIntoPc := by
  refine ⟨decode_retWord, fun s => ⟨fun older a h => ?_, fun h => ?_⟩⟩
  · exact ⟨_, exec_ret_of_append h, rfl, rfl, (setStack_frame s older).setPc a, fun ha => fetch_eq_none _ ha⟩
  · exact ⟨_, exec_ret_of_nil h, raise_haltedFrom _ _ _⟩

/-- Settles O33: under 16 entries the arm pushes and jumps, at 16 it raises. -/
theorem callPushesAndJumps : Obligations.CallPushesAndJumps := by
  refine fun nnn s => ⟨decode_wordNNN_call nnn, fun h => ?_, fun h => ?_⟩
  · exact ⟨_, exec_call_of_lt nnn h, rfl, setWidth_addr12_toNat nnn, (setStack_frame s _).setPc _⟩
  · exact ⟨_, exec_call_of_ge nnn h, raise_haltedFrom _ _ _⟩

/-- Settles O34: the entry that RET pops is the one that CALL pushed. -/
theorem returnUndoesCall : Obligations.ReturnUndoesCall :=
  fun nnn s h => ⟨_, _, exec_call_of_lt nnn h, exec_ret_of_append rfl, rfl, setPc_frame s _⟩

/-! ### JP and JP V0 -/

/-- Settles O32: the arm sets PC to nnn zero-extended, and 0xFFF is past every fetch. -/
theorem jpSetsPc : Obligations.JpSetsPc := by
  intro nnn s
  refine ⟨decode_wordNNN_jp nnn, _, rfl, setWidth_addr12_toNat nnn, setPc_frame s _, ?_⟩
  rintro rfl
  exact fetch_eq_none _ (Nat.le_of_eq (setWidth_addr12_toNat 0xFFF).symm)

/-- A byte added to a 12-bit address does not wrap at 16 bits. -/
theorem trunc16_byte_add_addr12 (b : Byte) (nnn : Addr12) :
    (trunc16 (b.toNat + nnn.toNat)).toNat = b.toNat + nnn.toNat := by
  have := b.isLt
  have := nnn.isLt
  exact trunc16_toNat_of_lt (by omega)

theorem jumpRegister_of_v0 {s : State} (nnn : Addr12) (h : s.cfg.jumpReg = .v0) : s.jumpRegister nnn = 0 := by
  rw [State.jumpRegister, h]

theorem jumpRegister_of_vx {s : State} (nnn : Addr12) (h : s.cfg.jumpReg = .vx) :
    s.jumpRegister nnn = fieldX (wordNNN 0xB nnn) := by
  rw [State.jumpRegister, h, fieldX_wordNNN]

/-- Settles O37: the sum of the offset register and nnn goes to PC unreduced. -/
theorem jpV0AddsOffset : Obligations.JpV0AddsOffset := by
  intro nnn s
  have hpc := trunc16_byte_add_addr12 (s.getV (s.jumpRegister nnn)) nnn
  refine ⟨decode_wordNNN_jpV0 nnn, _, rfl, fun h => ?_, fun h => ?_, setPc_frame s _, fetch_eq_none _⟩
  · rw [jumpRegister_of_v0 nnn h] at hpc
    rw [setPc_pc, jumpRegister_of_v0 nnn h, hpc]
  · rw [jumpRegister_of_vx nnn h] at hpc
    rw [setPc_pc, jumpRegister_of_vx nnn h, hpc]

end Sys2Proof.Machine
end

section

/-! # Arithmetic without the shifts: immediate add, SUBN and the random byte (42_alu.md R101, R108, R111) -/

namespace Sys2Proof.Machine

/-- Settles O39: the arm is one write of Vx, with no flag. -/
theorem addImmediateWritesNoFlag : Obligations.AddImmediateWritesNoFlag := by
  intro x kk s
  obtain ⟨t, he, hres, hpc, hframe⟩ := loads_of_exec_eq_setV (i := .addImm x kk) (s := s) rfl
  exact ⟨decode_wordXKK_addImm x kk, t, he, by rw [hres, trunc8_toNat], hpc, hframe⟩

/-- Settles O43: the flag is `noBorrow` of the old operands, minuend Vy. -/
theorem subnSetsNotBorrow : Obligations.SubnSetsNotBorrow := by
  intro x y s
  exact ⟨decode_wordXYN_subn x y,
    arith_of_exec_eq_setVFlag rfl (trunc8_toNat _) (noBorrow_eq_true_iff (s.getV y) (s.getV x))⟩

theorem setDraws_frame (s : State) (n : Nat) : Frame s { s with draws := n } [.draws] [] :=
  ⟨fun _ _ => rfl, fun p hp => by cases p <;> simp_all [Part.Same, State.byteAt, State.isPressed]⟩

/-- A draw changes Vx, the counter of draws and PC. -/
theorem rndWith_frame (r : Byte) (x : RegIdx) (kk : Byte) (s : State) :
    Frame s (rndWith r x kk s) [.pc, .draws] [x] :=
  (((setDraws_frame s _).mono (by simp) (by simp)).trans ((setV_frame _ x _).mono (by simp) (by simp))).advanceBy 2

end Sys2Proof.Machine
end

section

/-! # The index register and the memory transfers (43_index_memory.md R113 to R119) -/

namespace Sys2Proof.Machine

/-! ### ADD I, Vx and LD F, Vx -/

theorem exec_addIVx_of_unchanged (x : RegIdx) {s : State} (h : s.cfg.fx1eVf = .unchanged) :
    exec (.addIVx x) s = .next (s.setI (trunc16 (s.i.toNat + (s.getV x).toNat))).advance := by
  simp only [exec, execAddIVx, h]

theorem exec_addIVx_of_overflow12 (x : RegIdx) {s : State} (h : s.cfg.fx1eVf = .overflow12) :
    exec (.addIVx x) s =
      .next ((s.setI (trunc16 (s.i.toNat + (s.getV x).toNat))).setV vf
        (flagByte (overflow12 (s.i.toNat + (s.getV x).toNat)))).advance := by
  simp only [exec, execAddIVx, h]

theorem setI_setV_frame (s : State) (w : Word) (r : RegIdx) (b : Byte) :
    Frame s ((s.setI w).setV r b) [.i] [r] :=
  ((setI_frame s w).mono (by simp) (by simp)).trans ((setV_frame _ r b).mono (by simp) (by simp))

theorem overflow12_eq_true_iff (n : Nat) : overflow12 n = true ↔ 0x0FFF < n := decide_eq_true_iff

/-- Settles O47: one write of I under Unchanged; under Overflow12 the flag of the same sum follows it. -/
theorem addIndex : Obligations.AddIndex := by
  refine fun x s => ⟨decode_wordXKK_addIVx x, ?_⟩
  cases hp : s.cfg.fx1eVf with
  | unchanged =>
    obtain ⟨t, he, hi, hpc, hframe⟩ := loadsIndex_of_exec_eq_setI (exec_addIVx_of_unchanged x hp)
    exact ⟨t, he, by rw [hi, trunc16_toNat], hpc, fun _ => hframe, nofun⟩
  | overflow12 =>
    refine ⟨_, exec_addIVx_of_overflow12 x hp, trunc16_toNat _, rfl, nofun, fun _ => ⟨?_, ?_⟩⟩
    · exact (getV_setV_self _ vf _).trans (flagByte_eq_ite (overflow12_eq_true_iff _))
    · exact (setI_setV_frame s _ vf _).advanceBy 2

theorem fontDigit_of_lowNibble {s : State} (x : RegIdx) (h : s.cfg.fontDigit = .lowNibble) :
    s.fontDigit x = (s.getV x).toNat % 16 := by
  rw [State.fontDigit, h]
  exact Nat.and_two_pow_sub_one_eq_mod (s.getV x).toNat 4

theorem fontDigit_of_unmasked {s : State} (x : RegIdx) (h : s.cfg.fontDigit = .unmasked) :
    s.fontDigit x = (s.getV x).toNat := by
  rw [State.fontDigit, h]

theorem fontDigit_lt (s : State) (x : RegIdx) : s.fontDigit x < 256 := by
  have := (s.getV x).isLt
  cases h : s.cfg.fontDigit with
  | lowNibble =>
    rw [fontDigit_of_lowNibble x h]
    omega
  | unmasked => rwa [fontDigit_of_unmasked x h]

/-- Settles O48: under a legal FONT_BASE the address of a glyph, of digit 255 too, does not wrap. -/
theorem loadFontAddress : Obligations.LoadFontAddress := by
  refine fun x s => ⟨decode_wordXKK_ldFVx x, fun hok => ?_⟩
  obtain ⟨t, he, hi, hpc, hframe⟩ := loadsIndex_of_exec_eq_setI (i := .ldFVx x) (s := s) rfl
  have hdigit := fontDigit_lt s x
  have haddr : t.i.toNat = s.cfg.fontBase + 5 * s.fontDigit x := by
    rw [hi, trunc16_toNat_of_lt (by omega)]
  refine ⟨t, he, fun h => ?_, fun h => ?_, hpc, hframe⟩
  · rw [haddr, fontDigit_of_lowNibble x h]
  · rw [haddr, fontDigit_of_unmasked x h]

/-! ### Stores -/

/-- The state with `bs` stored at I. -/
def storeAtI (s : State) (bs : List Byte) : State := { s with mem := memWriteList s.cfg s.mem s.dataAddr bs }

theorem writeBytes_dataAddr {s : State} {bs : List Byte} (h : s.dataAddr + bs.length ≤ 4096) :
    s.writeBytes s.dataAddr bs = some (storeAtI s bs) := writeBytes_of_le s h

theorem writeBytes_of_gt {s : State} {a : Nat} {bs : List Byte} (hne : bs ≠ []) (h : 4096 < a + bs.length) :
    s.writeBytes a bs = none := by
  rw [Option.eq_none_iff_forall_ne_some]
  intro t ht
  obtain ⟨hnil | hle, -⟩ := writeBytes_eq_some ht
  · exact hne hnil
  · exact absurd hle (Nat.not_le.2 h)

theorem bcdDigits_length (b : Byte) : (bcdDigits b).length = 3 := rfl

theorem exec_ldBVx_of_lt (x : RegIdx) {s : State} (h : s.dataAddr + 2 < 4096) :
    exec (.ldBVx x) s = .next (storeAtI s (bcdDigits (s.getV x))).advance := by
  simp only [exec, execLdBVx, writeBytes_dataAddr (bs := bcdDigits (s.getV x)) h]

theorem exec_ldBVx_of_ge (x : RegIdx) {s : State} (h : 4096 ≤ s.dataAddr + 2) :
    exec (.ldBVx x) s = .next (raise .outOfBounds (some (wordXKK 0xF x 0x33)) s) := by
  have hnone : s.writeBytes s.dataAddr (bcdDigits (s.getV x)) = none :=
    writeBytes_of_gt (List.cons_ne_nil _ _) (by rw [bcdDigits_length]; omega)
  simp only [exec, execLdBVx, hnone, raiseIn, encode]

theorem exec_ldMemVx_of_lt (x : RegIdx) {s : State} (h : s.dataAddr + x.toNat < 4096) :
    exec (.ldMemVx x) s = .next ((storeAtI s (s.regsUpTo x)).bumpI x).advance := by
  have hle : s.dataAddr + (s.regsUpTo x).length ≤ 4096 := by
    rw [regsUpTo_length]
    omega
  simp only [exec, execLdMemVx, writeBytes_dataAddr hle]

theorem exec_ldMemVx_of_ge (x : RegIdx) {s : State} (h : 4096 ≤ s.dataAddr + x.toNat) :
    exec (.ldMemVx x) s = .next (raise .outOfBounds (some (wordXKK 0xF x 0x55)) s) := by
  have hlen := regsUpTo_length s x
  have hnone : s.writeBytes s.dataAddr (s.regsUpTo x) = none :=
    writeBytes_of_gt (List.ne_nil_of_length_eq_add_one hlen) (by omega)
  simp only [exec, execLdMemVx, hnone, raiseIn, encode]

/-- What a store at I leaves at its k-th byte. -/
theorem byteAt_storeAtI (s : State) {bs : List Byte} {k : Nat} (h : k < bs.length) :
    (storeAtI s bs).byteAt (s.dataAddr + k) = bs.getD k 0 := by
  refine (memRead_writeList s.cfg bs s.mem s.dataAddr _).trans ?_
  rw [if_pos (by omega), Nat.add_sub_cancel_left]

theorem sameBytesOutside_storeAtI (s : State) (bs : List Byte) :
    SameBytesOutside s (storeAtI s bs) s.dataAddr bs.length := by
  intro b hb
  refine (memRead_writeList s.cfg bs s.mem s.dataAddr b).trans ?_
  rw [if_neg (by omega)]
  rfl

theorem storeAtI_frame (s : State) (bs : List Byte) : Frame s (storeAtI s bs) [.mem] [] :=
  ⟨fun _ _ => rfl, fun p hp => by cases p <;> simp_all [Part.Same, storeAtI, State.isPressed]⟩

/-- A decimal digit stored at I: the k-th byte reads as it. -/
theorem byteAt_storeBcd_toNat (s : State) (b : Byte) {k n : Nat} (hk : k < 3) (hn : n < 256)
    (hdigit : (bcdDigits b).getD k 0 = trunc8 n) : ((storeAtI s (bcdDigits b)).byteAt (s.dataAddr + k)).toNat = n := by
  rw [byteAt_storeAtI s hk, hdigit, trunc8_toNat, Nat.mod_eq_of_lt hn]

/-- Settles O49: the three bytes stored are the digits, each below 256. -/
theorem storeBcd : Obligations.StoreBcd := by
  refine fun x s => ⟨decode_wordXKK_ldBVx x, fun h => ?_, fun h => ?_⟩
  · have hbyte := (s.getV x).isLt
    exact ⟨_, exec_ldBVx_of_lt x h, byteAt_storeBcd_toNat s _ (k := 0) (by omega) (by omega) rfl,
      byteAt_storeBcd_toNat s _ (k := 1) (by omega) (by omega) rfl,
      byteAt_storeBcd_toNat s _ (k := 2) (by omega) (by omega) rfl,
      sameBytesOutside_storeAtI s (bcdDigits (s.getV x)), rfl, (storeAtI_frame s _).advanceBy 2⟩
  · exact ⟨_, exec_ldBVx_of_ge x h, raise_haltedFrom _ _ _⟩

/-! ### I after a block transfer, by P_LDST_I -/

/-- What a block transfer does to I beside its transfer (R118, R119). -/
def bumpedParts (p : Params) : List Part :=
  match p.ldstI with
  | .unchanged => []
  | .increment => [.i]

theorem bumpedParts_subset (p : Params) : bumpedParts p ⊆ [.i] := by
  unfold bumpedParts
  split <;> simp

theorem bumpI_frame_bumpedParts (s : State) (x : RegIdx) : Frame s (s.bumpI x) (bumpedParts s.cfg) [] := by
  rcases bumpI_eq s x with ⟨he, -⟩ | ⟨he, hp⟩
  · rw [he]
    exact Frame.refl s _ _
  · rw [he, bumpedParts, hp]
    exact setI_frame s _

/-- A block transfer's own change, then I, then PC. -/
theorem Frame.bumpI_advance {s t : State} {ps : List Part} {rs : List RegIdx} (h : Frame s t ps rs)
    (hcfg : t.cfg = s.cfg) (x : RegIdx) : Frame s (t.bumpI x).advance (.pc :: (ps ++ bumpedParts s.cfg)) rs := by
  have hbump := bumpI_frame_bumpedParts t x
  rw [hcfg] at hbump
  exact ((h.mono (by simp) (by simp)).trans (hbump.mono (by simp) (by simp))).advanceBy 2

/-- I after a block transfer that leaves I alone in its own change. -/
theorem bumpI_advance_i {s t : State} (hi : t.i = s.i) (hcfg : t.cfg = s.cfg) (x : RegIdx) :
    (s.cfg.ldstI = .unchanged → (t.bumpI x).advance.i = s.i) ∧
      (s.cfg.ldstI = .increment → (t.bumpI x).advance.i.toNat = (s.i.toNat + x.toNat + 1) % 65536) := by
  rw [advance_eq, setPc_i, bumpI_i, hi, hcfg]
  refine ⟨fun h => ?_, fun h => ?_⟩
  · rw [h]
    rfl
  · rw [if_pos h, trunc16_toNat]

@[simp] theorem byteAt_bumpI (s : State) (x : RegIdx) (a : Nat) : (s.bumpI x).byteAt a = s.byteAt a := by
  simp [State.byteAt]

@[simp] theorem getV_bumpI (s : State) (x r : RegIdx) : (s.bumpI x).getV r = s.getV r := by
  simp [State.getV]

theorem bumpI_advance_pcPlus {s t : State} (x : RegIdx) (h : t.pc = s.pc) : PcPlus s (t.bumpI x).advance 2 := by
  simp [PcPlus, h]

/-- Settles O50: the bytes stored are V0..Vx, and I follows P_LDST_I. -/
theorem storeRegisters : Obligations.StoreRegisters := by
  refine fun x s => ⟨decode_wordXKK_ldMemVx x, fun h => ?_, fun h => ?_⟩
  · have hlen := regsUpTo_length s x
    have hmem (a : Nat) : ((storeAtI s (s.regsUpTo x)).bumpI x).advance.byteAt a =
        (storeAtI s (s.regsUpTo x)).byteAt a := byteAt_bumpI _ x a
    have hframe := (storeAtI_frame s (s.regsUpTo x)).bumpI_advance rfl x
    obtain ⟨hsame, hbumped⟩ := bumpI_advance_i (s := s) (t := storeAtI s (s.regsUpTo x)) rfl rfl x
    refine ⟨_, exec_ldMemVx_of_lt x h, fun k hk => ?_, fun b hb => ?_, hsame, hbumped, bumpI_advance_pcPlus x rfl,
      hframe.mono ?_ (by simp)⟩
    · have hle : k.toNat ≤ x.toNat := hk
      rw [hmem, byteAt_storeAtI s (by omega), regsUpTo_getD s hk]
    · rw [hmem]
      exact sameBytesOutside_storeAtI s _ b (by omega)
    · exact List.cons_subset_cons _ (List.cons_subset_cons _ (bumpedParts_subset _))
  · exact ⟨_, exec_ldMemVx_of_ge x h, raise_haltedFrom _ _ _⟩

/-- Settles O20: the next instruction's two bytes are the first two bytes stored, V0 and V1. -/
theorem storeIsSeenByNextFetch : Obligations.StoreIsSeenByNextFetch := by
  intro s x hx hi hlt
  obtain ⟨-, hstore, -⟩ := storeRegisters x s
  obtain ⟨t, he, hbytes, -, -, -, hpcPlus, -⟩ := hstore hlt
  have hpc : t.pc.toNat = s.dataAddr := by
    rw [hpcPlus, ← hi, trunc16_toNat_of_lt s.i.isLt]
    rfl
  have hfetch := fetch_of_lt t (by rw [hpc, State.dataAddr]; omega)
  rw [hpc] at hfetch
  refine ⟨t, _, he, hfetch, ?_, ?_⟩
  · rw [hiByte_composeWord]
    exact hbytes 0 (Nat.zero_le _)
  · rw [loByte_composeWord]
    exact hbytes 1 hx

/-! ### Loads -/

/-- The `n` bytes at I. -/
def bytesAtI (s : State) (n : Nat) : List Byte := (List.range n).map fun k => s.byteAt (s.dataAddr + k)

theorem bytesAtI_length (s : State) (n : Nat) : (bytesAtI s n).length = n := by
  simp [bytesAtI]

theorem bytesAtI_getD (s : State) {n k : Nat} (d : Byte) (h : k < n) :
    (bytesAtI s n).getD k d = s.byteAt (s.dataAddr + k) := by
  rw [List.getD_eq_getElem _ _ (by rwa [bytesAtI_length])]
  simp [bytesAtI]

theorem readBytes_of_gt {s : State} {a n : Nat} (hn : n ≠ 0) (h : 4096 < a + n) : s.readBytes a n = none := by
  rw [Option.eq_none_iff_forall_ne_some]
  intro bs hbs
  obtain ⟨h0 | hle, -⟩ := readBytes_eq_some hbs
  · exact hn h0
  · exact absurd hle (Nat.not_le.2 h)

theorem exec_ldVxMem_of_lt (x : RegIdx) {s : State} (h : s.dataAddr + x.toNat < 4096) :
    exec (.ldVxMem x) s = .next ((s.setRegsFrom0 (bytesAtI s (x.toNat + 1))).bumpI x).advance := by
  simp only [exec, execLdVxMem, readBytes_of_le s (a := s.dataAddr) (n := x.toNat + 1) (.inr (by omega)), bytesAtI]

theorem exec_ldVxMem_of_ge (x : RegIdx) {s : State} (h : 4096 ≤ s.dataAddr + x.toNat) :
    exec (.ldVxMem x) s = .next (raise .outOfBounds (some (wordXKK 0xF x 0x65)) s) := by
  have hnone : s.readBytes s.dataAddr (x.toNat + 1) = none := readBytes_of_gt (by omega) (by omega)
  simp only [exec, execLdVxMem, hnone, raiseIn, encode]

/-- V0..Vx hold the bytes at I after the loop of Fx65. -/
theorem getV_setRegsFrom0_of_le (s : State) {x k : RegIdx} (hk : k ≤ x) :
    (s.setRegsFrom0 (bytesAtI s (x.toNat + 1))).getV k = s.byteAt (s.dataAddr + k.toNat) := by
  have hle : k.toNat ≤ x.toNat := hk
  rw [getV_setRegsFrom0, bytesAtI_getD s _ (by omega)]

/-- The registers above Vx keep their values in the loop of Fx65. -/
theorem getV_setRegsFrom0_of_gt (s : State) {x k : RegIdx} (hk : x < k) :
    (s.setRegsFrom0 (bytesAtI s (x.toNat + 1))).getV k = s.getV k := by
  have hlt : x.toNat < k.toNat := hk
  rw [getV_setRegsFrom0, List.getD_eq_default _ _ (by rw [bytesAtI_length]; omega)]

theorem setRegsFrom0_frame (s : State) (x : RegIdx) :
    Frame s (s.setRegsFrom0 (bytesAtI s (x.toNat + 1))) [] (regsTo x) :=
  ⟨fun r hr => getV_setRegsFrom0_of_gt s (BitVec.not_le.1 fun h => hr ((mem_regsTo x r).2 h)),
    fun p _ => setRegsFrom0_same s _ p⟩

/-- Settles O51: V0..Vx take the bytes at I, and I follows P_LDST_I. -/
theorem loadRegisters : Obligations.LoadRegisters := by
  refine fun x s => ⟨decode_wordXKK_ldVxMem x, fun h => ?_, fun h => ?_⟩
  · have hframe := (setRegsFrom0_frame s x).bumpI_advance (setRegsFrom0_cfg s _) x
    obtain ⟨hsame, hbumped⟩ := bumpI_advance_i (setRegsFrom0_i s (bytesAtI s (x.toNat + 1))) (setRegsFrom0_cfg s _) x
    refine ⟨_, exec_ldVxMem_of_lt x h, fun k hk => ?_, fun k hk => ?_, hsame, hbumped,
      bumpI_advance_pcPlus x (setRegsFrom0_pc s _), hframe.mono ?_ (by simp)⟩
    · rw [advance_eq, getV_setPc, getV_bumpI, getV_setRegsFrom0_of_le s hk]
    · rw [advance_eq, getV_setPc, getV_bumpI, getV_setRegsFrom0_of_gt s hk]
    · exact List.cons_subset_cons _ (bumpedParts_subset _)
  · exact ⟨_, exec_ldVxMem_of_ge x h, raise_haltedFrom _ _ _⟩

end Sys2Proof.Machine
end

section

/-! # Drawing: which pixels a sprite toggles, each once, and the collision (44_display.md R120 to R125) -/

namespace Sys2Proof.Machine

/-! ### No place twice (R122) -/

/-- Two rows under 32 apart and two columns of a byte land on one place only if they are the same. -/
theorem spritePlace_inj {x0 y0 : Byte} {r r' j j' : Nat} (hrow : r < r' + 32) (hrow' : r' < r + 32) (hj : j < 8)
    (hj' : j' < 8) (h : spritePlace x0 y0 r j = spritePlace x0 y0 r' j') : r = r' ∧ j = j' := by
  obtain ⟨hx, hy⟩ := Prod.ext_iff.1 h
  have hx' : (x0.toNat + j) % 64 = (x0.toNat + j') % 64 := congrArg Fin.val hx
  have hy' : (y0.toNat + r) % 32 = (y0.toNat + r') % 32 := congrArg Fin.val hy
  omega

theorem rowPlaces_nodup (x0 y0 : Byte) (r : Nat) (b : Byte) : (rowPlaces x0 y0 r b).Nodup := by
  refine List.Nodup.map_on (fun j hj k hk h => ?_) (List.nodup_range.filter _)
  have hj8 : j < 8 := List.mem_range.1 (List.mem_of_mem_filter hj)
  have hk8 : k < 8 := List.mem_range.1 (List.mem_of_mem_filter hk)
  exact (spritePlace_inj (by omega) (by omega) hj8 hk8 h).2

/-- Rows of one sprite are disjoint while it has at most 32 of them. -/
theorem spritePlaces_nodup (x0 y0 : Byte) (bs : List Byte) (r : Nat) (h : bs.length ≤ 32) :
    (spritePlaces x0 y0 r bs).Nodup := by
  induction bs generalizing r with
  | nil => exact List.nodup_nil
  | cons b bs ih =>
    rw [List.length_cons] at h
    refine (rowPlaces_nodup x0 y0 r b).append (ih (r + 1) (by omega)) fun c hrow hrest => ?_
    obtain ⟨j, hj, rfl⟩ := List.mem_map.1 hrow
    obtain ⟨k, j', hk, hj', -, hplace⟩ := mem_spritePlaces.1 hrest
    have hj8 : j < 8 := List.mem_range.1 (List.mem_of_mem_filter hj)
    obtain ⟨hr, -⟩ := spritePlace_inj (by omega) (by omega) hj8 hj' hplace
    omega

/-- Settles O54: 15 rows do not wrap onto one another, and 8 columns neither. -/
theorem noPixelIsToggledTwice : Obligations.NoPixelIsToggledTwice :=
  fun x0 y0 bs h => spritePlaces_nodup x0 y0 bs 0 (by omega)

/-! ### One draw (R124) -/

/-- The places that the n-row sprite at I, drawn at (x0, y0), toggles. -/
def placesAtI (s : State) (x0 y0 : Byte) (n : Nibble) : List Place := spritePlaces x0 y0 0 (bytesAtI s n.toNat)

theorem placesAtI_nodup (s : State) (x0 y0 : Byte) (n : Nibble) : (placesAtI s x0 y0 n).Nodup := by
  have := n.isLt
  exact spritePlaces_nodup x0 y0 _ 0 (by rw [bytesAtI_length]; omega)

theorem mem_placesAtI {s : State} {x0 y0 : Byte} {n : Nibble} {c : Place} :
    c ∈ placesAtI s x0 y0 n ↔ SpriteCovers s x0 y0 n.toNat c := by
  rw [placesAtI, mem_spritePlaces, bytesAtI_length]
  refine exists_congr fun r => exists_congr fun j => and_congr_right fun hr => and_congr_right fun _ => ?_
  rw [bytesAtI_getD s 0 hr, Nat.zero_add]
  exact and_congr_right fun _ => ⟨by rintro rfl; exact ⟨rfl, rfl⟩, fun h => Prod.ext (Fin.ext h.1) (Fin.ext h.2)⟩

/-- The state that DRW leaves where it does not raise. -/
def drawn (x y : RegIdx) (n : Nibble) (s : State) : State :=
  (drawSprite (s.getV x) (s.getV y) (bytesAtI s n.toNat) s).advance

theorem exec_drw_of_le (x y : RegIdx) {n : Nibble} {s : State} (h : n = 0 ∨ s.dataAddr + n.toNat - 1 < 4096) :
    exec (.drw x y n) s = .next (drawn x y n s) := by
  have hle : n.toNat = 0 ∨ s.dataAddr + n.toNat ≤ 4096 := h.imp (congrArg BitVec.toNat) (by omega)
  simp only [exec, execDrw, readBytes_of_le s hle, drawn, bytesAtI]

theorem exec_drw_of_gt (x y : RegIdx) {n : Nibble} {s : State} (hn : 0 < n.toNat)
    (h : 4096 ≤ s.dataAddr + n.toNat - 1) :
    exec (.drw x y n) s = .next (raise .outOfBounds (some (wordXYN 0xD x y n)) s) := by
  have hnone : s.readBytes s.dataAddr n.toNat = none := readBytes_of_gt (by omega) (by omega)
  simp only [exec, execDrw, hnone, raiseIn, encode]

theorem drawn_frame (x y : RegIdx) (n : Nibble) (s : State) : Frame s (drawn x y n s) [.pc, .disp] [vf] :=
  (drawSprite_frame _ _ _ s).advanceBy 2

theorem pixel_drawn (x y : RegIdx) (n : Nibble) (s : State) (c : Place) :
    pixel (drawn x y n s).disp c = (pixel s.disp c ^^ decide (c ∈ placesAtI s (s.getV x) (s.getV y) n)) :=
  pixel_drawPlaces _ (placesAtI_nodup s _ _ n) s.disp false c

theorem getV_vf_drawn (x y : RegIdx) (n : Nibble) (s : State) :
    (drawn x y n s).getV vf = flagByte ((placesAtI s (s.getV x) (s.getV y) n).any (pixel s.disp)) := by
  have hflag : (drawn x y n s).getV vf =
      flagByte (drawPlaces s.disp false (placesAtI s (s.getV x) (s.getV y) n)).2 := getV_setV_self _ vf _
  rw [hflag, collision_drawPlaces _ (placesAtI_nodup s _ _ n), Bool.false_or]

/-- A pixel changes exactly where the sprite has a 1 bit. -/
theorem pixel_drawn_ne_iff (x y : RegIdx) (n : Nibble) (s : State) (c : Place) :
    pixel (drawn x y n s).disp c ≠ pixel s.disp c ↔ SpriteCovers s (s.getV x) (s.getV y) n.toNat c := by
  rw [pixel_drawn, ← mem_placesAtI]
  cases pixel s.disp c <;> simp

/-- VF is 1 when the sprite covers a pixel that was on. -/
theorem getV_vf_drawn_of_covered {x y : RegIdx} {n : Nibble} {s : State} {c : Place}
    (hcov : SpriteCovers s (s.getV x) (s.getV y) n.toNat c) (hon : pixel s.disp c = true) :
    (drawn x y n s).getV vf = 1 := by
  rw [getV_vf_drawn, List.any_eq_true.2 ⟨c, mem_placesAtI.2 hcov, hon⟩]
  rfl

/-- VF is 0 when every pixel that the sprite covers was off. -/
theorem getV_vf_drawn_of_clear {x y : RegIdx} {n : Nibble} {s : State}
    (hclear : ∀ c, SpriteCovers s (s.getV x) (s.getV y) n.toNat c → pixel s.disp c = false) :
    (drawn x y n s).getV vf = 0 := by
  have hnone : (placesAtI s (s.getV x) (s.getV y) n).any (pixel s.disp) = false :=
    List.any_eq_false.2 fun c hc => by simp [hclear c (mem_placesAtI.1 hc)]
  rw [getV_vf_drawn, hnone]
  rfl

/-- Settles O53: distinct places are toggled, and a covered pixel goes off exactly if it was on. -/
theorem drawTogglesSpritePixels : Obligations.DrawTogglesSpritePixels := by
  refine fun x y n s => ⟨decode_wordXYN_drw x y n, fun h => ?_, fun hn h => ?_⟩
  · refine ⟨drawn x y n s, exec_drw_of_le x y h, pixel_drawn_ne_iff x y n s, ?_, fun hstay => ?_, rfl,
      drawn_frame x y n s⟩
    · rintro ⟨c, hon, hoff⟩
      exact getV_vf_drawn_of_covered ((pixel_drawn_ne_iff x y n s c).1 (by simp [hon, hoff])) hon
    · refine getV_vf_drawn_of_clear fun c hcov => Bool.eq_false_iff.2 fun hon => ?_
      exact (pixel_drawn_ne_iff x y n s c).2 hcov ((hstay c hon).trans hon.symm)
  · exact ⟨_, exec_drw_of_gt x y hn h, raise_haltedFrom _ _ _⟩

/-! ### The same sprite again (R125) -/

/-- A draw leaves I and memory alone, so a second one reads the same sprite. -/
theorem spriteCovers_drawn (x y : RegIdx) (n : Nibble) (s : State) (x0 y0 : Byte) (k : Nat) (c : Place) :
    SpriteCovers (drawn x y n s) x0 y0 k c ↔ SpriteCovers s x0 y0 k c := Iff.rfl

/-- Settles O55: the second draw toggles the same places, each of which the first one turned on. -/
theorem drawingTwiceRestores : Obligations.DrawingTwiceRestores := by
  intro x y x' y' n s t hle hclear he hx hy
  obtain rfl : drawn x y n s = t := Host.Outcome.next.inj ((exec_drw_of_le x y hle).symm.trans he)
  refine ⟨getV_vf_drawn_of_clear hclear, _, exec_drw_of_le (s := drawn x y n s) x' y' hle, fun c => ?_, ?_⟩
  · have hsame : placesAtI (drawn x y n s) ((drawn x y n s).getV x') ((drawn x y n s).getV y') n =
        placesAtI s (s.getV x) (s.getV y) n := by
      rw [hx, hy]
      rfl
    rw [pixel_drawn, hsame, pixel_drawn, Bool.xor_assoc, Bool.xor_self, Bool.xor_false]
  · rintro ⟨c, hcov⟩
    refine getV_vf_drawn_of_covered (c := c) (by rwa [spriteCovers_drawn, hx, hy]) ?_
    have hflip := (pixel_drawn_ne_iff x y n s c).2 hcov
    rw [hclear c hcov] at hflip
    exact Bool.eq_true_of_not_eq_false hflip

end Sys2Proof.Machine
end

section

/-! # The key skips (45_timers_input.md R129 to R131) -/

namespace Sys2Proof.Machine

theorem exec_skp_of_key {x : RegIdx} {k : Key} {s : State} (h : s.keyOperand x = some k) :
    exec (.skp x) s = .next (s.skipIf (s.isPressed k)) := by
  simp only [exec, execSkp, h]

theorem exec_skp_of_none {x : RegIdx} {s : State} (h : s.keyOperand x = none) :
    exec (.skp x) s = .next (raise .invalidKey (some (wordXKK 0xE x 0x9E)) s) := by
  simp only [exec, execSkp, h, raiseIn, encode]

theorem exec_sknp_of_key {x : RegIdx} {k : Key} {s : State} (h : s.keyOperand x = some k) :
    exec (.sknp x) s = .next (s.skipIf (!s.isPressed k)) := by
  simp only [exec, execSknp, h]

theorem exec_sknp_of_none {x : RegIdx} {s : State} (h : s.keyOperand x = none) :
    exec (.sknp x) s = .next (raise .invalidKey (some (wordXKK 0xE x 0xA1)) s) := by
  simp only [exec, execSknp, h, raiseIn, encode]

/-- Settles O58: the operand names the key, and the skip is on its flag. -/
theorem keySkips : Obligations.KeySkips := by
  refine fun x s => ⟨decode_wordXKK_skp x, decode_wordXKK_sknp x, fun k hk hok => ?_, fun hgt hhalt => ?_⟩
  · have hkey := keyOperand_of_ok s x hk hok
    exact ⟨skips_of_exec_eq_skipIf (exec_skp_of_key hkey) Iff.rfl,
      skips_of_exec_eq_skipIf (exec_sknp_of_key hkey) (Iff.of_eq (Bool.not_eq_true' _))⟩
  · have hnone := keyOperand_of_halt s x hgt hhalt
    exact ⟨⟨_, exec_skp_of_none hnone, raise_haltedFrom _ _ _⟩,
      ⟨_, exec_sknp_of_none hnone, raise_haltedFrom _ _ _⟩⟩

end Sys2Proof.Machine
end

section

/-! # What one instruction can do: it raises, or it writes the parts and registers listed for it (10_state.md R27 to
R44, 60_exceptions.md R133) -/

namespace Sys2Proof.Machine

/-! ### When an instruction raises -/

/-- The instruction raises an error of the kind in this state (R133). -/
inductive Raises (s : State) : Instr → HaltReason → Prop
  | sys (nnn : Addr12) (hp : s.cfg.sys = .halt) : Raises s (.sys nnn) .unknownOpcode
  | ret (hempty : s.stack = []) : Raises s .ret .stackUnderflow
  | call (nnn : Addr12) (hfull : 16 ≤ s.stack.length) : Raises s (.call nnn) .stackOverflow
  | skp (x : RegIdx) (hp : s.cfg.keyIndex = .halt) (hkey : 15 < (s.getV x).toNat) : Raises s (.skp x) .invalidKey
  | sknp (x : RegIdx) (hp : s.cfg.keyIndex = .halt) (hkey : 15 < (s.getV x).toNat) : Raises s (.sknp x) .invalidKey
  | drw (x y : RegIdx) (n : Nibble) (hn : 0 < n.toNat) (hend : 4096 ≤ s.dataAddr + n.toNat - 1) :
    Raises s (.drw x y n) .outOfBounds
  | ldBVx (x : RegIdx) (hend : 4096 ≤ s.dataAddr + 2) : Raises s (.ldBVx x) .outOfBounds
  | ldMemVx (x : RegIdx) (hend : 4096 ≤ s.dataAddr + x.toNat) : Raises s (.ldMemVx x) .outOfBounds
  | ldVxMem (x : RegIdx) (hend : 4096 ≤ s.dataAddr + x.toNat) : Raises s (.ldVxMem x) .outOfBounds

/-! ### What an instruction that does not raise writes -/

/-- The skips (R88). -/
def isSkip : Instr → Bool
  | .seImm _ _ | .sneImm _ _ | .seReg _ _ _ | .sneReg _ _ _ | .skp _ | .sknp _ => true
  | _ => false

/-- The instructions that leave PC to the default advance (R34). -/
def advancesPc : Instr → Bool
  | .jp _ | .call _ | .ret | .jpV0 _ | .ldVxK _ => false
  | i => !isSkip i

/-- The value of PC after the instruction (R33, R34, R88). -/
inductive PcAfter (s : State) : Instr → Word → Prop
  | next {i : Instr} (hi : advancesPc i = true) : PcAfter s i (trunc16 (s.pc.toNat + 2))
  | skip {i : Instr} (hi : isSkip i = true) (c : Bool) : PcAfter s i (trunc16 (s.pc.toNat + if c then 4 else 2))
  | jp (nnn : Addr12) : PcAfter s (.jp nnn) (nnn.setWidth 16)
  | call (nnn : Addr12) : PcAfter s (.call nnn) (nnn.setWidth 16)
  | jpV0 (nnn : Addr12) : PcAfter s (.jpV0 nnn) (trunc16 ((s.getV (s.jumpRegister nnn)).toNat + nnn.toNat))
  | ret {older : List Word} {a : Word} (hs : s.stack = older ++ [a]) : PcAfter s .ret a
  | wait (x : RegIdx) : PcAfter s (.ldVxK x) s.pc

/-- The parts of the state that the instruction may write under the parameters. -/
def writtenParts (p : Params) : Instr → List Part
  | .cls | .drw _ _ _ => [.pc, .disp]
  | .ret | .call _ => [.pc, .stack]
  | .ldI _ | .addIVx _ | .ldFVx _ => [.pc, .i]
  | .rnd _ _ => [.pc, .draws]
  | .ldDtVx _ => [.pc, .dt]
  | .ldStVx _ => [.pc, .st]
  | .ldBVx _ => [.pc, .mem]
  | .ldMemVx _ => .pc :: .mem :: bumpedParts p
  | .ldVxMem _ => .pc :: bumpedParts p
  | .ldVxK _ => [.status]
  | _ => [.pc]

/-- The registers that the instruction may write under the parameters (R27, R29). -/
def writtenRegs (p : Params) (i : Instr) : List RegIdx := nominalDests i ++ if writesFlag p i then [vf] else []

/-- The instruction has run from `s` to `t` without raising. -/
structure Ran (i : Instr) (s t : State) : Prop where
  frame : Frame s t (writtenParts s.cfg i) (writtenRegs s.cfg i)
  pc : PcAfter s i t.pc
  /-- `frame` compares memory byte by byte; this says more, that the list of cells is a store's. -/
  mem : t.mem = s.mem ∨ ∃ a bs, s.writeBytes a bs = some { s with mem := t.mem }

/-! ### One instruction raises, or runs -/

/-- The two outcomes of an instruction. -/
def RaisesOrRuns (i : Instr) (s : State) : Prop :=
  (∃ e, Raises s i e ∧ exec i s = .next (raise e (some (encode i)) s)) ∨ ∃ t, exec i s = .next t ∧ Ran i s t

/-- An instruction whose arm advances after a change that leaves PC and memory alone. -/
theorem RaisesOrRuns.of_advance {i : Instr} {s u : State} {ps : List Part} (he : exec i s = .next u.advance)
    (hframe : Frame s u ps (writtenRegs s.cfg i)) (hparts : writtenParts s.cfg i = .pc :: ps)
    (hi : advancesPc i = true) (hpc : u.pc = s.pc) (hmem : u.mem = s.mem) : RaisesOrRuns i s :=
  .inr ⟨_, he, ⟨hparts ▸ hframe.advanceBy 2, by rw [advance_eq, setPc_pc, hpc]; exact .next hi, .inl hmem⟩⟩

/-- An instruction whose arm is a skip. -/
theorem RaisesOrRuns.of_skipIf {i : Instr} {s : State} {c : Bool} (he : exec i s = .next (s.skipIf c))
    (hi : isSkip i = true) (hparts : writtenParts s.cfg i = [.pc]) : RaisesOrRuns i s :=
  .inr ⟨_, he, ⟨hparts ▸ (advanceBy_frame s _).mono (by simp) (by simp), .skip hi c, .inl rfl⟩⟩

/-- An instruction whose arm writes Vx and advances. -/
theorem RaisesOrRuns.of_setV {i : Instr} {s : State} {x : RegIdx} {b : Byte}
    (he : exec i s = .next (s.setV x b).advance) (hregs : writtenRegs s.cfg i = [x])
    (hparts : writtenParts s.cfg i = [.pc]) (hi : advancesPc i = true) : RaisesOrRuns i s :=
  .of_advance he (hregs ▸ setV_frame s x b) hparts hi rfl rfl

/-- An instruction whose arm writes Vx, then the flag, and advances. -/
theorem RaisesOrRuns.of_setVFlag {i : Instr} {s : State} {x : RegIdx} {b : Byte} {c : Bool}
    (he : exec i s = .next (s.setVFlag x b c).advance) (hregs : writtenRegs s.cfg i = [x, vf])
    (hparts : writtenParts s.cfg i = [.pc]) (hi : advancesPc i = true) : RaisesOrRuns i s :=
  .of_advance he (hregs ▸ setVFlag_frame s x b c) hparts hi rfl rfl

/-- An instruction whose arm writes a logic result and advances: with the flag 0 under Reset, else without one. -/
theorem RaisesOrRuns.of_setVLogic {i : Instr} {s : State} {x : RegIdx} {b : Byte}
    (he : exec i s = .next (s.setVLogic x b).advance)
    (hregs : writtenRegs s.cfg i = x :: if s.cfg.logicVf == .reset then [vf] else [])
    (hparts : writtenParts s.cfg i = [.pc]) (hi : advancesPc i = true) : RaisesOrRuns i s := by
  cases hp : s.cfg.logicVf with
  | unchanged =>
    rw [hp] at hregs
    exact .of_setV (by rw [he, setVLogic_of_unchanged x b hp]) hregs hparts hi
  | reset =>
    rw [hp] at hregs
    exact .of_setVFlag (by rw [he, setVLogic_of_reset x b hp]) hregs hparts hi

theorem setStatus_frame (s : State) (st : Status) : Frame s { s with status := st } [.status] [] :=
  ⟨fun _ _ => rfl, fun p hp => by cases p <;> simp_all [Part.Same, State.byteAt, State.isPressed]⟩

/-! The instructions that may raise, or whose writes depend on a parameter. -/

theorem keyOperand_cases (s : State) (x : RegIdx) :
    (∃ k, s.keyOperand x = some k) ∨
      s.keyOperand x = none ∧ s.cfg.keyIndex = .halt ∧ 15 < (s.getV x).toNat := by
  have hk : ((s.getV x).setWidth 4).toNat = (s.getV x).toNat % 16 := BitVec.toNat_setWidth _ _
  cases hp : s.cfg.keyIndex with
  | lowNibble => exact .inl ⟨_, keyOperand_of_ok s x hk (.inr hp)⟩
  | halt =>
    rcases Nat.lt_or_ge 15 (s.getV x).toNat with h | h
    · exact .inr ⟨keyOperand_of_halt s x h hp, rfl, h⟩
    · exact .inl ⟨_, keyOperand_of_ok s x hk (.inl h)⟩

theorem raisesOrRuns_sys (nnn : Addr12) (s : State) : RaisesOrRuns (.sys nnn) s := by
  cases hp : s.cfg.sys with
  | nop => exact .of_advance (exec_sys_of_nop nnn hp) (Frame.refl s [] _) rfl rfl rfl rfl
  | halt => exact .inl ⟨_, .sys nnn hp, exec_sys_of_halt nnn hp⟩

theorem raisesOrRuns_ret (s : State) : RaisesOrRuns .ret s := by
  rcases List.eq_nil_or_concat' s.stack with h | ⟨older, a, h⟩
  · exact .inl ⟨_, .ret h, exec_ret_of_nil h⟩
  · exact .inr ⟨_, exec_ret_of_append h, ⟨(setStack_frame s older).setPc a, .ret h, .inl rfl⟩⟩

theorem raisesOrRuns_call (nnn : Addr12) (s : State) : RaisesOrRuns (.call nnn) s := by
  rcases Nat.lt_or_ge s.stack.length 16 with h | h
  · exact .inr ⟨_, exec_call_of_lt nnn h, ⟨(setStack_frame s _).setPc _, .call nnn, .inl rfl⟩⟩
  · exact .inl ⟨_, .call nnn h, exec_call_of_ge nnn h⟩

theorem raisesOrRuns_skp (x : RegIdx) (s : State) : RaisesOrRuns (.skp x) s := by
  rcases keyOperand_cases s x with ⟨k, h⟩ | ⟨h, hp, hkey⟩
  · exact .of_skipIf (exec_skp_of_key h) rfl rfl
  · exact .inl ⟨_, .skp x hp hkey, exec_skp_of_none h⟩

theorem raisesOrRuns_sknp (x : RegIdx) (s : State) : RaisesOrRuns (.sknp x) s := by
  rcases keyOperand_cases s x with ⟨k, h⟩ | ⟨h, hp, hkey⟩
  · exact .of_skipIf (exec_sknp_of_key h) rfl rfl
  · exact .inl ⟨_, .sknp x hp hkey, exec_sknp_of_none h⟩

/-- A sprite runs past the end of memory, or it has no byte there. -/
theorem drw_cases (n : Nibble) (s : State) :
    (0 < n.toNat ∧ 4096 ≤ s.dataAddr + n.toNat - 1) ∨ (n = 0 ∨ s.dataAddr + n.toNat - 1 < 4096) := by
  rcases Nat.eq_zero_or_pos n.toNat with h0 | h0
  · exact .inr (.inl (BitVec.eq_of_toNat_eq h0))
  · omega

theorem raisesOrRuns_drw (x y : RegIdx) (n : Nibble) (s : State) : RaisesOrRuns (.drw x y n) s := by
  rcases drw_cases n s with ⟨hn, h⟩ | h
  · exact .inl ⟨_, .drw x y n hn h, exec_drw_of_gt x y hn h⟩
  · exact .of_advance (exec_drw_of_le x y h) (drawSprite_frame _ _ _ s) rfl rfl rfl rfl

theorem raisesOrRuns_addIVx (x : RegIdx) (s : State) : RaisesOrRuns (.addIVx x) s := by
  cases hp : s.cfg.fx1eVf with
  | unchanged =>
    exact .of_advance (exec_addIVx_of_unchanged x hp) ((setI_frame s _).mono (by simp) (by simp)) rfl rfl rfl rfl
  | overflow12 =>
    have hregs : writtenRegs s.cfg (.addIVx x) = [vf] := by simp [writtenRegs, nominalDests, writesFlag, hp]
    exact .of_advance (exec_addIVx_of_overflow12 x hp) (hregs ▸ setI_setV_frame s _ vf _) rfl rfl rfl rfl

/-- A store at I inside memory is one that `writeBytes` takes. -/
theorem storeAtI_mem {s : State} {bs : List Byte} (h : s.dataAddr + bs.length ≤ 4096) :
    ∃ a bs', s.writeBytes a bs' = some { s with mem := (storeAtI s bs).mem } :=
  ⟨_, bs, writeBytes_dataAddr h⟩

theorem raisesOrRuns_ldBVx (x : RegIdx) (s : State) : RaisesOrRuns (.ldBVx x) s := by
  rcases Nat.lt_or_ge (s.dataAddr + 2) 4096 with h | h
  · exact .inr ⟨_, exec_ldBVx_of_lt x h, ⟨(storeAtI_frame s _).advanceBy 2, .next rfl,
      .inr (storeAtI_mem (bs := bcdDigits (s.getV x)) h)⟩⟩
  · exact .inl ⟨_, .ldBVx x h, exec_ldBVx_of_ge x h⟩

theorem raisesOrRuns_ldMemVx (x : RegIdx) (s : State) : RaisesOrRuns (.ldMemVx x) s := by
  rcases Nat.lt_or_ge (s.dataAddr + x.toNat) 4096 with h | h
  · have hlen := regsUpTo_length s x
    have hmem := storeAtI_mem (s := s) (bs := s.regsUpTo x) (by omega)
    refine .inr ⟨_, exec_ldMemVx_of_lt x h, ⟨(storeAtI_frame s _).bumpI_advance rfl x, ?_, .inr ?_⟩⟩
    · rw [bumpI_advance_pcPlus x (rfl : (storeAtI s (s.regsUpTo x)).pc = s.pc)]
      exact .next rfl
    · rwa [advance_eq, setPc_mem, bumpI_mem]
  · exact .inl ⟨_, .ldMemVx x h, exec_ldMemVx_of_ge x h⟩

theorem raisesOrRuns_ldVxMem (x : RegIdx) (s : State) : RaisesOrRuns (.ldVxMem x) s := by
  rcases Nat.lt_or_ge (s.dataAddr + x.toNat) 4096 with h | h
  · have hregs : writtenRegs s.cfg (.ldVxMem x) = regsTo x := List.append_nil _
    refine .inr ⟨_, exec_ldVxMem_of_lt x h,
      ⟨hregs ▸ (setRegsFrom0_frame s x).bumpI_advance (setRegsFrom0_cfg s _) x, ?_, .inl ?_⟩⟩
    · rw [bumpI_advance_pcPlus x (setRegsFrom0_pc s _)]
      exact .next rfl
    · rw [advance_eq, setPc_mem, bumpI_mem, setRegsFrom0_mem]
  · exact .inl ⟨_, .ldVxMem x h, exec_ldVxMem_of_ge x h⟩

/-- Every instruction raises under its condition, or runs and writes what is listed for it. -/
theorem raisesOrRuns (i : Instr) (s : State) : RaisesOrRuns i s := by
  cases i with
  | sys nnn => exact raisesOrRuns_sys nnn s
  | cls => exact .of_advance rfl (setDisp_frame s blankDisplay) rfl rfl rfl rfl
  | ret => exact raisesOrRuns_ret s
  | jp nnn => exact .inr ⟨_, rfl, ⟨setPc_frame s _, .jp nnn, .inl rfl⟩⟩
  | call nnn => exact raisesOrRuns_call nnn s
  | seImm x kk => exact .of_skipIf rfl rfl rfl
  | sneImm x kk => exact .of_skipIf rfl rfl rfl
  | seReg x y g => exact .of_skipIf rfl rfl rfl
  | ldImm x kk => exact .of_setV rfl rfl rfl rfl
  | addImm x kk => exact .of_setV rfl rfl rfl rfl
  | ldReg x y => exact .of_setV rfl rfl rfl rfl
  | orReg x y => exact .of_setVLogic rfl rfl rfl rfl
  | andReg x y => exact .of_setVLogic rfl rfl rfl rfl
  | xorReg x y => exact .of_setVLogic rfl rfl rfl rfl
  | addReg x y => exact .of_setVFlag rfl rfl rfl rfl
  | sub x y => exact .of_setVFlag rfl rfl rfl rfl
  | shr x y => exact .of_setVFlag rfl rfl rfl rfl
  | subn x y => exact .of_setVFlag rfl rfl rfl rfl
  | shl x y => exact .of_setVFlag rfl rfl rfl rfl
  | sneReg x y g => exact .of_skipIf rfl rfl rfl
  | ldI nnn => exact .of_advance rfl (setI_frame s _) rfl rfl rfl rfl
  | jpV0 nnn => exact .inr ⟨_, rfl, ⟨setPc_frame s _, .jpV0 nnn, .inl rfl⟩⟩
  | rnd x kk => exact .inr ⟨_, rfl, ⟨rndWith_frame _ x kk s, .next rfl, .inl rfl⟩⟩
  | drw x y n => exact raisesOrRuns_drw x y n s
  | skp x => exact raisesOrRuns_skp x s
  | sknp x => exact raisesOrRuns_sknp x s
  | ldVxDt x => exact .of_setV rfl rfl rfl rfl
  | ldVxK x => exact .inr ⟨_, rfl, ⟨setStatus_frame s _, .wait x, .inl rfl⟩⟩
  | ldDtVx x => exact .of_advance rfl (setDt_frame s _) rfl rfl rfl rfl
  | ldStVx x => exact .of_advance rfl (setSt_frame s _) rfl rfl rfl rfl
  | addIVx x => exact raisesOrRuns_addIVx x s
  | ldFVx x => exact .of_advance rfl (setI_frame s _) rfl rfl rfl rfl
  | ldBVx x => exact raisesOrRuns_ldBVx x s
  | ldMemVx x => exact raisesOrRuns_ldMemVx x s
  | ldVxMem x => exact raisesOrRuns_ldVxMem x s

/-- What is known of a state that an instruction answers. -/
theorem exec_cases {i : Instr} {s t : State} (he : exec i s = .next t) :
    (∃ e, Raises s i e ∧ t = raise e (some (encode i)) s) ∨ Ran i s t := by
  rcases raisesOrRuns i s with ⟨e, hraises, hexec⟩ | ⟨u, hexec, hran⟩
  · exact .inl ⟨e, hraises, Host.Outcome.next.inj (he.symm.trans hexec)⟩
  · obtain rfl : t = u := Host.Outcome.next.inj (he.symm.trans hexec)
    exact .inr hran

theorem exec_answers_next (i : Instr) (s : State) : ∃ t, exec i s = .next t := by
  rcases raisesOrRuns i s with ⟨e, -, hexec⟩ | ⟨t, hexec, -⟩
  · exact ⟨_, hexec⟩
  · exact ⟨t, hexec⟩

end Sys2Proof.Machine
end

section

/-! # Which instruction writes what, and which raises what (10_state.md R27 to R44, 60_exceptions.md R133) -/

namespace Sys2Proof.Machine

/-! ### Parts -/

@[simp] theorem mem_bumpedParts {p : Params} {q : Part} : q ∈ bumpedParts p ↔ q = .i ∧ p.ldstI = .increment := by
  unfold bumpedParts
  split <;> simp_all

theorem disp_mem_writtenParts {p : Params} {i : Instr} (h : .disp ∈ writtenParts p i) :
    i = .cls ∨ ∃ x y n, i = .drw x y n := by
  cases i <;> simp_all [writtenParts]

theorem stack_mem_writtenParts {p : Params} {i : Instr} (h : .stack ∈ writtenParts p i) :
    i = .ret ∨ ∃ nnn, i = .call nnn := by
  cases i <;> simp_all [writtenParts]

theorem dt_mem_writtenParts {p : Params} {i : Instr} (h : .dt ∈ writtenParts p i) : ∃ x, i = .ldDtVx x := by
  cases i <;> simp_all [writtenParts]

theorem st_mem_writtenParts {p : Params} {i : Instr} (h : .st ∈ writtenParts p i) : ∃ x, i = .ldStVx x := by
  cases i <;> simp_all [writtenParts]

theorem mem_mem_writtenParts {p : Params} {i : Instr} (h : .mem ∈ writtenParts p i) :
    ∃ x, i = .ldBVx x ∨ i = .ldMemVx x := by
  cases i <;> simp_all [writtenParts]

theorem draws_mem_writtenParts {p : Params} {i : Instr} (h : .draws ∈ writtenParts p i) : ∃ x kk, i = .rnd x kk := by
  cases i <;> simp_all [writtenParts]

theorem i_mem_writtenParts {p : Params} {i : Instr} (h : .i ∈ writtenParts p i) :
    (∃ nnn, i = .ldI nnn) ∨ (∃ x, i = .addIVx x ∨ i = .ldFVx x) ∨
      (p.ldstI = .increment ∧ ∃ x, i = .ldMemVx x ∨ i = .ldVxMem x) := by
  cases i <;> simp_all [writtenParts]

theorem status_mem_writtenParts {p : Params} {i : Instr} (h : .status ∈ writtenParts p i) : ∃ x, i = .ldVxK x := by
  cases i <;> simp_all [writtenParts]

theorem keys_notMem_writtenParts (p : Params) (i : Instr) : .keys ∉ writtenParts p i := by
  cases i <;> simp [writtenParts]

theorem cfg_notMem_writtenParts (p : Params) (i : Instr) : .cfg ∉ writtenParts p i := by
  cases i <;> simp [writtenParts]

/-- A part that an instruction does not write is the same afterwards, whether the instruction raises or not; the status
is another matter, since a raise writes it. -/
theorem same_of_exec {i : Instr} {s t : State} (he : exec i s = .next t) {q : Part} (hq : q ∉ writtenParts s.cfg i)
    (hstatus : q ≠ .status) : q.Same s t := by
  rcases exec_cases he with ⟨e, -, rfl⟩ | hran
  · obtain ⟨-, -, hsame⟩ := raise_haltedFrom e (some (encode i)) s
    exact hsame q (by simpa using hstatus)
  · exact hran.frame.2 q hq

theorem mem_writtenParts_of_not_same {i : Instr} {s t : State} (he : exec i s = .next t) {q : Part}
    (h : ¬ q.Same s t) (hstatus : q ≠ .status) : q ∈ writtenParts s.cfg i := by
  by_contra hq
  exact h (same_of_exec he hq hstatus)

/-- Settles O26: a part that changed is one of those listed for the instruction. -/
theorem whichInstructionWritesWhat : Obligations.WhichInstructionWritesWhat := by
  intro i s t he
  refine ⟨fun ⟨c, hc⟩ => ?_, fun h => ?_, fun h => ?_, fun h => ?_, fun ⟨a, ha⟩ => ?_, fun h => ?_, ?_, ?_⟩
  · exact disp_mem_writtenParts (mem_writtenParts_of_not_same he (fun hsame => hc (hsame c)) nofun)
  · exact stack_mem_writtenParts (mem_writtenParts_of_not_same he h nofun)
  · exact dt_mem_writtenParts (mem_writtenParts_of_not_same he h nofun)
  · exact st_mem_writtenParts (mem_writtenParts_of_not_same he h nofun)
  · exact mem_mem_writtenParts (mem_writtenParts_of_not_same he (fun hsame => ha (hsame a)) nofun)
  · exact draws_mem_writtenParts (mem_writtenParts_of_not_same he h nofun)
  · exact same_of_exec he (keys_notMem_writtenParts _ i) nofun
  · exact same_of_exec he (cfg_notMem_writtenParts _ i) nofun

/-- Settles O27: I is listed for these instructions alone. -/
theorem whichInstructionWritesI : Obligations.WhichInstructionWritesI :=
  fun _ _ _ he h => i_mem_writtenParts (mem_writtenParts_of_not_same he h nofun)

/-- Settles O45: the arm draws one byte and masks it, and the counter of draws is listed for RND alone. -/
theorem randomIsMaskedDraw : Obligations.RandomIsMaskedDraw := by
  constructor
  · intro x kk s
    have hres : (rndWith (Config.randomByte s.draws) x kk s).getV x = Config.randomByte s.draws &&& kk :=
      getV_setV_self _ x _
    refine ⟨decode_wordXKK_rnd x kk, _, rfl, hres, fun h => ?_, rfl, rfl, rndWith_frame _ x kk s⟩
    rw [hres, h]
    exact BitVec.and_zero
  · intro i s t he hi
    refine same_of_exec he (q := .draws) (fun hmem => ?_) nofun
    obtain ⟨x, kk, hrnd⟩ := draws_mem_writtenParts hmem
    exact hi x kk hrnd

/-! ### Registers and PC -/

/-- A register that an instruction does not write is the same afterwards. -/
theorem getV_of_exec {i : Instr} {s t : State} (he : exec i s = .next t) {r : RegIdx} (hr : r ∉ writtenRegs s.cfg i) :
    t.getV r = s.getV r := by
  rcases exec_cases he with ⟨e, -, rfl⟩ | hran
  · exact getV_raise e _ s r
  · exact hran.frame.1 r hr

theorem mem_writtenRegs {p : Params} {i : Instr} {r : RegIdx} :
    r ∈ writtenRegs p i ↔ r ∈ nominalDests i ∨ (r = vf ∧ writesFlag p i = true) := by
  unfold writtenRegs
  split <;> simp_all

/-- Settles O28: a register that changed is one of those listed for the instruction. -/
theorem whichInstructionWritesRegisters : Obligations.WhichInstructionWritesRegisters := by
  intro i s t r he hne
  exact mem_writtenRegs.1 (by_contra fun hr => hne (getV_of_exec he hr))

/-- Settles O29: a raise would have halted, and the other values of PC belong to the instructions excluded. -/
theorem defaultPcAdvance : Obligations.DefaultPcAdvance := by
  intro i s t _ he hrun hjump hret hskipImm hskipReg hx
  rcases exec_cases he with ⟨e, -, rfl⟩ | hran
  · cases hrun
  · unfold PcPlus
    generalize t.pc = w, hran.pc = hpc
    cases hpc with
    | next => rfl
    | skip hi c => cases i <;> simp_all [isSkip]
    | jp nnn => exact absurd rfl (hjump nnn).1
    | call nnn => exact absurd rfl (hjump nnn).2.1
    | jpV0 nnn => exact absurd rfl (hjump nnn).2.2
    | ret => exact absurd rfl hret
    | wait x => exact absurd rfl (hx x).2.2

/-! ### Errors -/

/-- The status that an instruction leaves where it does not raise. -/
theorem Ran.status {i : Instr} {s t : State} (hran : Ran i s t) (he : exec i s = .next t) :
    t.status = s.status ∨ ∃ x, t = { s with status := .waitingForKey x } := by
  by_cases hmem : .status ∈ writtenParts s.cfg i
  · obtain ⟨x, rfl⟩ := status_mem_writtenParts hmem
    exact .inr ⟨x, (Host.Outcome.next.inj he).symm⟩
  · exact .inl (hran.frame.2 .status hmem)

/-- An instruction halts only by raising. -/
theorem raises_of_exec_halted {i : Instr} {s t : State} {e : HaltReason} {p : Word} {o : Option Word}
    (hs : s.isHalted = false) (he : exec i s = .next t) (ht : t.status = .halted e p o) :
    Raises s i e ∧ t = raise e (some (encode i)) s := by
  rcases exec_cases he with ⟨e', hraises, rfl⟩ | hran
  · obtain ⟨rfl, -, -⟩ := Status.halted.inj ht
    exact ⟨hraises, rfl⟩
  · rcases hran.status he with hsame | ⟨x, rfl⟩
    · rw [State.isHalted, ← hsame, ht] at hs
      cases hs
    · cases ht

theorem isHalted_of_running {s : State} (h : s.status = .running) : s.isHalted = false := by
  rw [State.isHalted, h]

/-- Settles O13: an instruction halts only by raising, and its condition is the row of R133. -/
theorem errorKindsByInstruction : Obligations.ErrorKindsByInstruction := by
  intro i s t e p o hs he ht
  obtain ⟨hraises, rfl⟩ := raises_of_exec_halted (isHalted_of_running hs) he ht
  obtain ⟨-, rfl, rfl⟩ := Status.halted.inj ht
  refine ⟨rfl, rfl, ?_⟩
  cases hraises with
  | sys nnn hp => exact .inr (.inl ⟨rfl, hp, nnn, rfl⟩)
  | ret hempty => exact .inr (.inr (.inr (.inl ⟨rfl, hempty, rfl⟩)))
  | call nnn hfull => exact .inr (.inr (.inl ⟨rfl, hfull, nnn, rfl⟩))
  | skp x hp hkey => exact .inr (.inr (.inr (.inr ⟨rfl, hp, x, .inl rfl, hkey⟩)))
  | sknp x hp hkey => exact .inr (.inr (.inr (.inr ⟨rfl, hp, x, .inr rfl, hkey⟩)))
  | drw x y n hn hend => exact .inl ⟨rfl, .inl ⟨x, y, n, rfl, hn, hend⟩⟩
  | ldBVx x hend => exact .inl ⟨rfl, .inr (.inl ⟨x, rfl, hend⟩)⟩
  | ldMemVx x hend => exact .inl ⟨rfl, .inr (.inr (.inl ⟨x, rfl, hend⟩))⟩
  | ldVxMem x hend => exact .inl ⟨rfl, .inr (.inr (.inr ⟨x, rfl, hend⟩))⟩

end Sys2Proof.Machine
end

section

/-! # One cycle, by status (40_cycle.md R78 to R85) -/

namespace Sys2Proof.Machine

/-! ### What a cycle answers -/

theorem step_of_halted {s : State} {e : HaltReason} {p : Word} {o : Option Word} (h : s.status = .halted e p o) :
    step s = .next s := by
  simp only [step, cycle, h]

theorem step_of_waiting {s : State} {r : RegIdx} (h : s.status = .waitingForKey r) :
    step s = .next (waitStep r s) := by
  simp only [step, cycle, h]

theorem step_of_decode_ok {s : State} {w : Word} {i : Instr} (hs : s.status = .running) (hf : s.fetch = some w)
    (hd : decode w = .ok i) : step s = exec i s := by
  simp only [step, cycle, runningCycle, hs, hf, hd]

/-- What a cycle in Running can do: fail at fetch, fail at decode, or execute. -/
theorem step_running_cases {s t : State} (hs : s.status = .running) (h : step s = .next t) :
    (s.fetch = none ∧ t = raise .outOfBounds none s) ∨
      (∃ w, s.fetch = some w ∧ t = raise .unknownOpcode (some w) s) ∨
        ∃ w i, s.fetch = some w ∧ decode w = .ok i ∧ exec i s = .next t := by
  cases hf : s.fetch with
  | none =>
    rw [step_of_fetch_none hs hf] at h
    exact .inl ⟨rfl, (Host.Outcome.next.inj h).symm⟩
  | some w =>
    cases hd : decode w with
    | error e =>
      rw [step_of_decode_error hs hf hd] at h
      exact .inr (.inl ⟨w, rfl, (Host.Outcome.next.inj h).symm⟩)
    | ok i =>
      rw [step_of_decode_ok hs hf hd] at h
      exact .inr (.inr ⟨w, i, rfl, hd, h⟩)

theorem step_answers_next (s : State) : ∃ t, step s = .next t := by
  cases hs : s.status with
  | halted e p o => exact ⟨s, step_of_halted hs⟩
  | waitingForKey r => exact ⟨_, step_of_waiting hs⟩
  | running =>
    cases hf : s.fetch with
    | none => exact ⟨_, step_of_fetch_none hs hf⟩
    | some w =>
      cases hd : decode w with
      | error e => exact ⟨_, step_of_decode_error hs hf hd⟩
      | ok i =>
        rw [step_of_decode_ok hs hf hd]
        exact exec_answers_next i s

/-- Settles O11: so does every instruction, by `exec_answers_next`. -/
theorem everyStepAnswersNext : Obligations.EveryStepAnswersNext := step_answers_next

theorem composeWord_toNat (hi lo : Byte) : (composeWord hi lo).toNat = hi.toNat * 256 + lo.toNat := by
  rw [composeWord, BitVec.toNat_append, ← Nat.shiftLeft_add_eq_or_of_lt lo.isLt, Nat.shiftLeft_eq]

/-- Settles O7: the fetched word is the one whose number is that of the two bytes. -/
theorem stepRunsTheDecodedInstruction : Obligations.StepRunsTheDecodedInstruction := by
  rintro s hi lo w i hs hpc rfl rfl hw hd
  have hword : w = composeWord (s.byteAt s.pc.toNat) (s.byteAt (s.pc.toNat + 1)) :=
    BitVec.eq_of_toNat_eq (by rw [hw, composeWord_toNat])
  exact step_of_decode_ok hs (by rw [hword, fetch_of_lt s (by omega)]) hd

/-- Settles O9: the cycle's arm for Halted answers the state itself, and the reads are by status. -/
theorem haltedCycleChangesNothing : Obligations.HaltedCycleChangesNothing := by
  refine ⟨fun s e p o h => ⟨step_of_halted h, ?_, ?_⟩, fun s h => ?_⟩
  · rw [State.result, h]
  · rw [State.diagnostics, h]
  · unfold State.isHalted at h
    unfold State.result State.diagnostics
    split at h <;> simp_all

/-! ### A cycle in WaitingForKey (R81) -/

theorem setChoices_frame (s : State) (n : Nat) : Frame s { s with choices := n } [.choices] [] :=
  ⟨fun _ _ => rfl, fun p hp => by cases p <;> simp_all [Part.Same, State.byteAt, State.isPressed]⟩

theorem endWait_frame (r : RegIdx) (k : Key) (s : State) : Frame s (endWait r k s) [.pc, .status] [r] :=
  (((setV_frame s r (k.setWidth 8)).advanceBy 2).mono (by simp) (by simp)).trans
    ((setStatus_frame _ .running).mono (by simp) (by simp))

theorem getV_endWait (r : RegIdx) (k : Key) (s : State) : ((endWait r k s).getV r).toNat = k.toNat := by
  have hres : (endWait r k s).getV r = k.setWidth 8 := getV_setV_self s r _
  rw [hres, BitVec.toNat_setWidth_of_le (by decide)]

theorem waitStep_of_none {s : State} (r : RegIdx) (h : ∀ k, s.isPressed k = false) : waitStep r s = s := by
  have hnil : s.pressedKeys = [] :=
    List.eq_nil_iff_forall_not_mem.2 fun k hk => by simp [mem_pressedKeys, h k] at hk
  simp only [waitStep, hnil]

theorem waitStep_of_cons {s : State} (r : RegIdx) {k : Key} {ks : List Key} (h : s.pressedKeys = k :: ks) :
    waitStep r s = endWait r (s.chooseKey k ks).1 { s with choices := (s.chooseKey k ks).2 } := by
  simp only [waitStep, h]

theorem pressedKeys_eq_cons {s : State} {j : Key} (h : s.isPressed j = true) : ∃ k ks, s.pressedKeys = k :: ks :=
  List.ne_nil_iff_exists_cons.1 (List.ne_nil_of_mem ((mem_pressedKeys s j).2 h))

theorem chooseKey_of_lowest {s : State} (k : Key) (ks : List Key) (h : s.cfg.keySelect = .lowest) :
    s.chooseKey k ks = (k, s.choices) := by
  simp only [State.chooseKey, h]

/-- With one pressed key nothing is free. -/
theorem chooseKey_nil (s : State) (k : Key) : s.chooseKey k [] = (k, s.choices) := by
  unfold State.chooseKey
  split <;> simp_all

/-- The first of the pressed keys is the lowest. -/
theorem head_pressedKeys_le {s : State} {k l : Key} {ks : List Key} (h : s.pressedKeys = k :: ks)
    (hl : s.isPressed l = true) : k.toNat ≤ l.toNat := by
  have hsorted := pressedKeys_sorted s
  have hmem := (mem_pressedKeys s l).2 hl
  rw [h] at hsorted hmem
  rcases List.mem_cons.1 hmem with rfl | hmem
  · exact le_refl _
  · exact List.rel_of_pairwise_cons hsorted hmem

/-- Settles O10: the wait step by whether some key is pressed. -/
theorem keyWaitCycle : Obligations.KeyWaitCycle := by
  refine fun s r hs => ⟨fun hnone => ?_, fun j hj => ?_⟩
  · rw [step_of_waiting hs, waitStep_of_none r hnone]
  · obtain ⟨k, ks, hkeys⟩ := pressedKeys_eq_cons hj
    have hpressed : s.isPressed (s.chooseKey k ks).1 = true := by
      rw [← mem_pressedKeys, hkeys]
      exact chooseKey_mem s k ks
    have hstep := step_of_waiting hs
    rw [waitStep_of_cons r hkeys] at hstep
    refine ⟨_, (s.chooseKey k ks).1, hstep, hpressed, fun hp l hl => ?_, getV_endWait _ _ _, rfl, rfl,
      ((setChoices_frame s _).mono (by simp) (by simp)).trans ((endWait_frame r _ _).mono (by simp) (by simp))⟩
    rw [chooseKey_of_lowest k ks hp]
    exact head_pressedKeys_le hkeys hl

/-! ### A cycle that raises (R134) -/

theorem waitStep_isHalted {s : State} {r : RegIdx} (hs : s.status = .waitingForKey r) :
    (waitStep r s).isHalted = false := by
  unfold waitStep
  split
  · rw [State.isHalted, hs]
  · rfl

/-- A cycle that raises halts with the word it fetched, or with none where the fetch itself failed. -/
theorem step_raises {s t : State} {e : HaltReason} {p : Word} {o : Option Word} (hs : s.isHalted = false)
    (hstep : step s = .next t) (ht : t.status = .halted e p o) : t = raise e s.fetch s := by
  cases hstatus : s.status with
  | halted e p o =>
    rw [State.isHalted, hstatus] at hs
    cases hs
  | waitingForKey r =>
    rw [step_of_waiting hstatus] at hstep
    obtain rfl := Host.Outcome.next.inj hstep
    have := waitStep_isHalted hstatus
    rw [State.isHalted, ht] at this
    cases this
  | running =>
    rcases step_running_cases hstatus hstep with ⟨hf, rfl⟩ | ⟨w, hf, rfl⟩ | ⟨w, i, hf, hd, he⟩
    · obtain ⟨rfl, -, -⟩ := Status.halted.inj ht
      rw [hf]
    · obtain ⟨rfl, -, -⟩ := Status.halted.inj ht
      rw [hf]
    · obtain ⟨-, hword⟩ := isWordOf_of_decode hd
      rw [hf, ← hword]
      exact (raises_of_exec_halted hs he ht).2

/-- Settles O12: such a cycle is one raise, which changes the status alone. -/
theorem haltIsPrecise : Obligations.HaltIsPrecise := by
  intro s t e p o hs hstep ht
  obtain rfl := step_raises hs hstep ht
  obtain ⟨-, rfl, rfl⟩ := Status.halted.inj ht
  exact ⟨rfl, rfl, raise_haltedFrom e _ s⟩

end Sys2Proof.Machine
end

section

/-! # The host's calls: ticks, keys, schedules and the key wait under them (60_exceptions.md sections 3, 7 and 8) -/

namespace Sys2Proof.Machine

/-! ### Schedules -/

theorem runEvents_cons {e : Event} {s t : State} (h : runEvent e s = .next t) (es : List Event) :
    runEvents (e :: es) s = runEvents es t := by
  simp only [runEvents, h]

theorem runEvents_append {es : List Event} {s t : State} (h : runEvents es s = .next t) (fs : List Event) :
    runEvents (es ++ fs) s = runEvents fs t := by
  induction es generalizing s with
  | nil =>
    obtain rfl := Host.Outcome.next.inj h
    rfl
  | cons e es ih =>
    cases he : runEvent e s with
    | next u =>
      rw [runEvents_cons he] at h
      rw [List.cons_append, runEvents_cons he, ih h]
    | fault r => simp [runEvents, he] at h
    | refused r => simp [runEvents, he] at h

/-- Cycles that change nothing, however many. -/
theorem runEvents_replicate_cycle {s : State} (h : step s = .next s) (m : Nat) :
    runEvents (List.replicate m .cycle) s = .next s := by
  induction m with
  | zero => rfl
  | succ m ih => rw [List.replicate_succ, runEvents_cons (e := .cycle) h, ih]

/-! ### Ticks (R140) -/

theorem tick_frame (s : State) : Frame s s.tick [.dt, .st] [] :=
  ⟨fun _ _ => rfl, fun p hp => by cases p <;> simp_all [Part.Same]⟩

/-- Settles O24: one tick lowers each timer by one, and a run of them adds up. -/
theorem ticksCountDownAndSaturate : Obligations.TicksCountDownAndSaturate := by
  refine ⟨fun s => ⟨tickTimer_toNat s.dt, tickTimer_toNat s.st, tick_frame s⟩, fun s n => ?_⟩
  induction n generalizing s with
  | zero => exact ⟨s, rfl, rfl, rfl, Frame.refl s _ _⟩
  | succ n ih =>
    obtain ⟨t, hrun, hdt, hst, hframe⟩ := ih s.tick
    refine ⟨t, hrun, ?_, ?_, (tick_frame s).trans hframe⟩
    · rw [hdt, tick_dt, tickTimer_toNat]
      omega
    · rw [hst, tick_st, tickTimer_toNat]
      omega

/-! ### The key write and the halted state (R136, R144) -/

theorem setKey_frame (s : State) (k : Key) (b : Bool) : Frame s (s.setKey k b) [.keys] [] :=
  ⟨fun _ _ => rfl, fun p hp => by cases p <;> simp_all [Part.Same]⟩

/-- Settles O25: one entry of the latch is written. -/
theorem setKeySetsOneKey : Obligations.SetKeySetsOneKey := by
  refine fun s k b => ⟨by rw [isPressed_setKey, if_pos rfl], fun j hj => ?_, setKey_frame s k b⟩
  rw [isPressed_setKey, if_neg (Ne.symm hj)]

theorem step_of_isHalted {s : State} (h : s.isHalted = true) : step s = .next s := by
  unfold State.isHalted at h
  split at h
  · exact step_of_halted ‹_›
  · cases h
  · cases h

/-- Settles O14: the other calls leave the status as it is. -/
theorem onlyLoadLeavesHalted : Obligations.OnlyLoadLeavesHalted := by
  intro e s t hs he ht
  cases e with
  | load image init => exact ⟨image, init, rfl⟩
  | cycle =>
    obtain rfl := Host.Outcome.next.inj ((step_of_isHalted hs).symm.trans he)
    rw [hs] at ht
    cases ht
  | tick =>
    obtain rfl := Host.Outcome.next.inj he
    exact absurd (hs.symm.trans ht) nofun
  | setKey k b =>
    obtain rfl := Host.Outcome.next.inj he
    exact absurd (hs.symm.trans ht) nofun

/-! ### The key wait under the host's calls (R132) -/

theorem pressedKeys_nodup (s : State) : s.pressedKeys.Nodup := by
  unfold State.pressedKeys
  apply List.Nodup.filter
  decide

theorem pressedKeys_of_only {s : State} {k : Key} (h : ∀ j, s.isPressed j = decide (k = j)) : s.pressedKeys = [k] := by
  have hmem (j : Key) : j ∈ s.pressedKeys ↔ j = k := by
    rw [mem_pressedKeys, h j, decide_eq_true_iff, eq_comm]
  exact List.perm_singleton.1 ((List.perm_ext_iff_of_nodup (pressedKeys_nodup s) (List.nodup_singleton k)).2
    (by simpa using hmem))

/-- A wait with one key latched ends with that key, and draws no choice. -/
theorem step_of_waiting_only {s : State} {r : RegIdx} {k : Key} (hs : s.status = .waitingForKey r)
    (h : ∀ j, s.isPressed j = decide (k = j)) : step s = .next (endWait r k s) := by
  rw [step_of_waiting hs, waitStep_of_cons r (pressedKeys_of_only h), chooseKey_nil]

/-- Settles O59: with no key the wait stands still; then one key is latched, a tick falls, and the cycle ends it. -/
theorem keyWaitIsIssuedThenEnded : Obligations.KeyWaitIsIssuedThenEnded := by
  refine fun x s => ⟨decode_wordXKK_ldVxK x, { s with status := .waitingForKey x }, rfl, rfl, setStatus_frame s _,
    fun hnone => ?_⟩
  generalize ht : ({ s with status := .waitingForKey x } : State) = t
  have hwait : t.status = .waitingForKey x := by rw [← ht]
  have hnone_t : ∀ k, t.isPressed k = false := by rwa [← ht]
  have hstill : step t = .next t := by rw [step_of_waiting hwait, waitStep_of_none x hnone_t]
  refine ⟨runEvents_replicate_cycle hstill, fun m k => ⟨endWait x k (t.setKey k true).tick, ?_, getV_endWait _ _ _, ?_,
    rfl, ?_, ?_⟩⟩
  · have honly (j : Key) : (t.setKey k true).tick.isPressed j = decide (k = j) := by
      rw [isPressed_tick, isPressed_setKey, hnone_t]
      split <;> simp_all
    rw [runEvents_append (runEvents_replicate_cycle hstill m), runEvents_cons (e := .setKey k true) rfl,
      runEvents_cons (e := .tick) rfl, runEvents_cons (e := .cycle) (step_of_waiting_only (s := (t.setKey k true).tick) hwait honly)]
    rfl
  · rw [← ht]
    rfl
  · rw [← ht]
    exact tickTimer_toNat s.dt
  · rw [← ht]
    have hlatch := (setStatus_frame s (.waitingForKey x)).mono (qs := [.pc, .status, .keys, .dt, .st]) (us := [x])
      (by simp) (by simp)
    exact ((hlatch.trans ((setKey_frame _ k true).mono (by simp) (by simp))).trans
      ((tick_frame _).mono (by simp) (by simp))).trans ((endWait_frame x k _).mono (by simp) (by simp))

end Sys2Proof.Machine
end

section

/-! # The invariant of every run (10_state.md R36, R37; 20_memory.md R51; 60_exceptions.md R133, R143) -/

namespace Sys2Proof.Machine

/-! ### The status of a state -/

theorem statusOk_of_running {s : State} (h : s.status = .running) : statusOk s = true := by
  rw [statusOk, h]

theorem statusOk_congr {s t : State} (hstatus : t.status = s.status) (hpc : t.pc = s.pc) : statusOk t = statusOk s := by
  simp only [statusOk, hstatus, hpc]

/-- The kinds that an instruction raises are recorded with PC and its word. -/
theorem statusOk_raise {s : State} {i : Instr} {e : HaltReason} (h : Raises s i e) (w : Word) :
    statusOk (raise e (some w) s) = true := by
  cases h <;> simp [statusOk]

/-! ### What keeps the invariant -/

/-- A change that keeps the parameters, memory and the return stack keeps the invariant if PC and the status allow. -/
theorem inv_of_same {s t : State} (h : s.Inv) (hcfg : t.cfg = s.cfg) (hmem : t.mem = s.mem) (hstack : t.stack = s.stack)
    (hpc : t.pc.toNat ≤ 0x10FE) (hstatus : statusOk t = true) : t.Inv := by
  obtain ⟨hok, hwf, hlen, hentries, -, -⟩ := h
  refine ⟨?_, ?_, ?_, ?_, hpc, hstatus⟩
  · rwa [hcfg]
  · rwa [hcfg, hmem]
  · rwa [hstack]
  · rwa [hstack]

theorem inv_raise {s : State} {e : HaltReason} {o : Option Word} (h : s.Inv)
    (hstatus : statusOk (raise e o s) = true) : (raise e o s).Inv := by
  obtain ⟨-, -, -, -, hpc, -⟩ := id h
  exact inv_of_same h rfl rfl rfl hpc hstatus

/-! ### Every instruction keeps it -/

/-- From a fetched address PC moves to at most 0x10FE, by Bnnn (R36). -/
theorem pcAfter_le {s : State} {i : Instr} {w : Word} (h : PcAfter s i w) (hpc : s.pc.toNat ≤ 0x0FFE)
    (hentries : ∀ a ∈ s.stack, a.toNat ≤ 0x1000) : w.toNat ≤ 0x10FE := by
  cases h with
  | next => exact (trunc16_toNat_of_lt (show s.pc.toNat + 2 < 65536 by omega)).trans_le (by omega)
  | skip hi c =>
    have hskip : (if c then 4 else 2) ≤ 4 := by split <;> omega
    exact (trunc16_toNat_of_lt (by omega)).trans_le (by omega)
  | jp nnn | call nnn =>
    have := nnn.isLt
    rw [setWidth_addr12_toNat]
    omega
  | jpV0 nnn =>
    have := nnn.isLt
    have := (s.getV (s.jumpRegister nnn)).isLt
    rw [trunc16_byte_add_addr12]
    omega
  | ret hs =>
    have := hentries w (by simp [hs])
    omega
  | wait x => omega

/-- The return stack holds at most 16 entries, each at most 0x1000 (R37). -/
def StackOk (l : List Word) : Prop := l.length ≤ stackDepth ∧ ∀ a ∈ l, a.toNat ≤ 0x1000

theorem stackOk_ret {s t : State} (he : exec .ret s = .next t) (h : StackOk s.stack) : StackOk t.stack := by
  rcases List.eq_nil_or_concat' s.stack with hnil | ⟨older, a, happ⟩
  · rw [exec_ret_of_nil hnil] at he
    obtain rfl := Host.Outcome.next.inj he
    exact h
  · rw [exec_ret_of_append happ] at he
    obtain rfl := Host.Outcome.next.inj he
    rw [happ] at h
    obtain ⟨hlen, hentries⟩ := h
    rw [List.length_append] at hlen
    exact ⟨Nat.le_of_add_right_le hlen, fun b hb => hentries b (List.mem_append_left _ hb)⟩

theorem stackOk_call {nnn : Addr12} {s t : State} (he : exec (.call nnn) s = .next t) (h : StackOk s.stack)
    (hpc : s.pc.toNat ≤ 0x0FFE) : StackOk t.stack := by
  rcases Nat.lt_or_ge s.stack.length 16 with hlt | hge
  · rw [exec_call_of_lt nnn hlt] at he
    obtain rfl := Host.Outcome.next.inj he
    refine ⟨by simpa using hlt, fun b hb => ?_⟩
    rcases List.mem_append.1 hb with hb | hb
    · exact h.2 b hb
    · rw [List.mem_singleton.1 hb, trunc16_toNat_of_lt (by omega)]
      omega
  · rw [exec_call_of_ge nnn hge] at he
    obtain rfl := Host.Outcome.next.inj he
    exact h

theorem stackOk_exec {i : Instr} {s t : State} (he : exec i s = .next t) (h : StackOk s.stack)
    (hpc : s.pc.toNat ≤ 0x0FFE) : StackOk t.stack := by
  by_cases hmem : .stack ∈ writtenParts s.cfg i
  · rcases stack_mem_writtenParts hmem with rfl | ⟨nnn, rfl⟩
    · exact stackOk_ret he h
    · exact stackOk_call he h hpc
  · rwa [show t.stack = s.stack from same_of_exec he hmem nofun]

theorem Ran.mem_wf {i : Instr} {s t : State} (hran : Ran i s t) (hwf : Memory.wf s.cfg s.mem) :
    Memory.wf s.cfg t.mem := by
  rcases hran.mem with hsame | ⟨a, bs, hwrite⟩
  · rwa [hsame]
  · exact writeBytes_wf hwrite hwf

theorem Ran.statusOk_eq_true {i : Instr} {s t : State} (hran : Ran i s t) (he : exec i s = .next t)
    (hs : s.status = .running) (hpc : s.pc.toNat ≤ 0x0FFE) : statusOk t = true := by
  rcases hran.status he with hsame | ⟨x, rfl⟩
  · exact statusOk_of_running (hsame.trans hs)
  · exact decide_eq_true hpc

theorem inv_exec {i : Instr} {s t : State} (h : s.Inv) (hs : s.status = .running) (hpc : s.pc.toNat ≤ 0x0FFE)
    (he : exec i s = .next t) : t.Inv := by
  rcases exec_cases he with ⟨e, hraises, rfl⟩ | hran
  · exact inv_raise h (statusOk_raise hraises _)
  · obtain ⟨hok, hwf, hlen, hentries, -, -⟩ := h
    have hcfg : t.cfg = s.cfg := same_of_exec he (cfg_notMem_writtenParts _ i) nofun
    obtain ⟨hlen', hentries'⟩ := stackOk_exec he ⟨hlen, hentries⟩ hpc
    refine ⟨?_, ?_, hlen', hentries', pcAfter_le hran.pc hpc hentries, hran.statusOk_eq_true he hs hpc⟩
    · rwa [hcfg]
    · rw [hcfg]
      exact hran.mem_wf hwf

/-! ### Every cycle keeps it -/

theorem pc_le_of_fetch {s : State} {w : Word} (h : s.fetch = some w) : s.pc.toNat ≤ 0x0FFE := by
  by_contra hgt
  rw [fetch_eq_none s (by omega)] at h
  cases h

theorem pc_le_of_waiting {s : State} {r : RegIdx} (h : s.Inv) (hs : s.status = .waitingForKey r) :
    s.pc.toNat ≤ 0x0FFE := by
  obtain ⟨-, -, -, -, -, hstatus⟩ := h
  rw [statusOk, hs] at hstatus
  exact of_decide_eq_true hstatus

theorem inv_waitStep {s : State} {r : RegIdx} (h : s.Inv) (hs : s.status = .waitingForKey r) : (waitStep r s).Inv := by
  have hpc := pc_le_of_waiting h hs
  cases hkeys : s.pressedKeys with
  | nil =>
    rw [waitStep_of_none r fun k => Bool.eq_false_iff.2 fun hk => by simp [← mem_pressedKeys, hkeys] at hk]
    exact h
  | cons k ks =>
    rw [waitStep_of_cons r hkeys]
    refine inv_of_same h rfl rfl rfl ?_ rfl
    exact (trunc16_toNat_of_lt (show s.pc.toNat + 2 < 65536 by omega)).trans_le (by omega)

theorem inv_step {s t : State} (h : s.Inv) (hstep : step s = .next t) : t.Inv := by
  cases hs : s.status with
  | halted e p o =>
    obtain rfl := Host.Outcome.next.inj ((step_of_halted hs).symm.trans hstep)
    exact h
  | waitingForKey r =>
    obtain rfl := Host.Outcome.next.inj ((step_of_waiting hs).symm.trans hstep)
    exact inv_waitStep h hs
  | running =>
    rcases step_running_cases hs hstep with ⟨-, rfl⟩ | ⟨w, -, rfl⟩ | ⟨w, i, hf, -, he⟩
    · exact inv_raise h (by simp [statusOk])
    · exact inv_raise h (by simp [statusOk])
    · exact inv_exec h hs (pc_le_of_fetch hf) he

/-- Settles O16: each of the three kinds of cycle keeps it. -/
theorem stepKeepsInvariant : Obligations.StepKeepsInvariant := fun _ _ => inv_step

/-! ### Construction and the other calls keep it -/

theorem inv_construct {p : Params} (hok : p.ok) : (State.construct p).Inv :=
  ⟨hok, construct_memory_wf p, Nat.zero_le _, by simp, by simp [loadOffset, trunc16], rfl⟩

/-- Settles O15: the constructed memory lists nothing, the stack is empty and PC is 0x200. -/
theorem constructionMeetsInvariant : Obligations.ConstructionMeetsInvariant :=
  ⟨fun _ => inv_construct, inv_construct (by decide)⟩

theorem load_of_refused {s : State} {image : List Byte} (init : List Byte)
    (h : loadRefused s.cfg image.length = true) :
    s.load image init = { s with status := .halted .imageTooLarge (trunc16 loadOffset) none } := if_pos h

theorem load_of_accepted {s : State} {image : List Byte} (init : List Byte)
    (h : loadRefused s.cfg image.length = false) :
    s.load image init = s.install (withInitMem s.cfg init) image := if_neg (by simp [h])

/-- A load that is not refused ends inside memory. -/
theorem length_le_of_accepted {p : Params} {n : Nat} (h : loadRefused p n = false) : loadOffset + n ≤ memSize := by
  have hnot : ¬ loadRefused p n = true := by simp [h]
  rw [loadRefused_iff] at hnot
  unfold loadOffset memSize
  omega

theorem install_mem_wf {s : State} {image : List Byte} (init : List Byte) (hwf : Memory.wf s.cfg s.mem)
    (hlen : loadOffset + image.length ≤ memSize) :
    Memory.wf (withInitMem s.cfg init) (s.install (withInitMem s.cfg init) image).mem :=
  memWriteList_wf image (keepFont_wf init hwf) (.inr hlen)

theorem load_mem_wf {s : State} (image init : List Byte) (hwf : Memory.wf s.cfg s.mem) :
    Memory.wf (s.load image init).cfg (s.load image init).mem := by
  cases h : loadRefused s.cfg image.length with
  | true =>
    rw [load_of_refused init h]
    exact hwf
  | false =>
    rw [load_of_accepted init h]
    exact install_mem_wf init hwf (length_le_of_accepted h)

/-- Settles O19: each byte stored keeps the form, and a load lists font bytes and the image. -/
theorem memoryOperationsKeepCanonicalForm : Obligations.MemoryOperationsKeepCanonicalForm :=
  ⟨fun _ _ _ _ hwf h => writeBytes_wf h hwf, fun _ image init hwf => load_mem_wf image init hwf⟩

theorem inv_load {s : State} (image init : List Byte) (h : s.Inv) : (s.load image init).Inv := by
  obtain ⟨hok, hwf, -, -, hpc, -⟩ := id h
  have hmem := load_mem_wf image init hwf
  cases hload : loadRefused s.cfg image.length with
  | true =>
    rw [load_of_refused init hload]
    exact inv_of_same h rfl rfl rfl hpc (by simp [statusOk])
  | false =>
    rw [load_of_accepted init hload] at hmem ⊢
    exact ⟨hok, hmem, Nat.zero_le _, by simp, by simp [loadOffset, trunc16], rfl⟩

/-- A change of timers or keys keeps the invariant. -/
theorem inv_of_same_pc_status {s t : State} (h : s.Inv) (hcfg : t.cfg = s.cfg) (hmem : t.mem = s.mem)
    (hstack : t.stack = s.stack) (hpc : t.pc = s.pc) (hstatus : t.status = s.status) : t.Inv := by
  obtain ⟨-, -, -, -, hle, hok⟩ := id h
  exact inv_of_same h hcfg hmem hstack (by rwa [hpc]) (by rwa [statusOk_congr hstatus hpc])

theorem runEvent_keeps_inv (e : Event) {s : State} (h : s.Inv) : ∃ t, runEvent e s = .next t ∧ t.Inv := by
  cases e with
  | cycle =>
    obtain ⟨t, ht⟩ := step_answers_next s
    exact ⟨t, ht, inv_step h ht⟩
  | tick => exact ⟨_, rfl, inv_of_same_pc_status h rfl rfl rfl rfl rfl⟩
  | setKey k b => exact ⟨_, rfl, inv_of_same_pc_status h rfl rfl rfl rfl rfl⟩
  | load image init => exact ⟨_, rfl, inv_load image init h⟩

/-- Settles O17: by induction on the schedule, one call at a time. -/
theorem everyScheduleKeepsInvariant : Obligations.EveryScheduleKeepsInvariant := by
  intro es
  induction es with
  | nil => exact fun s h => ⟨s, rfl, h⟩
  | cons e es ih =>
    intro s h
    obtain ⟨t, he, ht⟩ := runEvent_keeps_inv e h
    obtain ⟨u, hrun, hu⟩ := ih t ht
    exact ⟨u, (runEvents_cons he es).trans hrun, hu⟩

end Sys2Proof.Machine
end

section

/-! # Construction and load: what each state holds (70_reset_and_hazards.md R153, R154) -/

namespace Sys2Proof.Machine

theorem inFont_iff {p : Params} {a : Nat} : inFont p a = true ↔ p.fontBase ≤ a ∧ a < p.fontBase + 80 := by
  simp [inFont]

theorem inFont_of_outside {p : Params} {a : Nat} (h : a < p.fontBase ∨ p.fontBase + 80 ≤ a) : inFont p a = false := by
  rw [Bool.eq_false_iff, Ne, inFont_iff]
  omega

theorem launchByte_font (p : Params) (k : Fin 80) : launchByte p (p.fontBase + k.val) = p.fontData[k] := by
  have hk := k.isLt
  rw [launchByte, if_pos (inFont_iff.2 (by omega)), Nat.add_sub_cancel_left,
    List.getD_eq_getElem _ _ (by simp)]
  simp

theorem launchByte_outside {p : Params} {a : Nat} (h : a < p.fontBase ∨ p.fontBase + 80 ≤ a) :
    launchByte p a = p.initMem.getD a 0 := by
  rw [launchByte, inFont_of_outside h]
  rfl

/-- Settles O21: an unlisted byte reads as at launch, and every other field is written out. -/
theorem constructionState : Obligations.ConstructionState := by
  intro p s
  exact ⟨getV_construct p, rfl, rfl, rfl, rfl, rfl, pixel_construct p, isPressed_construct p, rfl, launchByte_font p,
    fun _ => launchByte_outside⟩

theorem byteAt_install_image (s : State) (image init : List Byte) {k : Nat} (hk : k < image.length) :
    (s.install (withInitMem s.cfg init) image).byteAt (loadOffset + k) = image.getD k 0 := by
  rw [byteAt_install, if_pos (by omega), Nat.add_sub_cancel_left]

/-- Where the image does not overlap the font, an installed memory keeps the font. -/
theorem byteAt_install_font (s : State) (image init : List Byte) {k : Nat} (hk : k < 80)
    (hover : image.length = 0 ∨ loadOffset + image.length ≤ s.cfg.fontBase ∨ s.cfg.fontBase + 80 ≤ loadOffset) :
    (s.install (withInitMem s.cfg init) image).byteAt (s.cfg.fontBase + k) = s.byteAt (s.cfg.fontBase + k) := by
  rw [byteAt_install, if_neg (by omega), if_pos (inFont_iff.2 (by omega))]

theorem byteAt_install_outside (s : State) (image init : List Byte) {a : Nat}
    (himage : a < loadOffset ∨ loadOffset + image.length ≤ a)
    (hfont : a < s.cfg.fontBase ∨ s.cfg.fontBase + 80 ≤ a) :
    (s.install (withInitMem s.cfg init) image).byteAt a = init.getD a 0 := by
  rw [byteAt_install, if_neg (by omega), inFont_of_outside hfont]
  rfl

/-- Settles O22: the refusal is the complement of the first premise, and an accepted load installs. -/
theorem loadResetsTheMachine : Obligations.LoadResetsTheMachine := by
  intro s image init t
  refine ⟨fun hlen hover => ?_, fun hrefused => ?_⟩
  · have haccepted : loadRefused s.cfg image.length = false := by
      rw [Bool.eq_false_iff, Ne, loadRefused_iff]
      omega
    have hload : t = s.install (withInitMem s.cfg init) image := load_of_accepted init haccepted
    rw [hload]
    exact ⟨getV_install _ image s, rfl, rfl, rfl, rfl, rfl, pixel_install _ image s, isPressed_install _ image s, rfl,
      fun _ => byteAt_install_image s image init, fun _ hk => byteAt_install_font s image init hk hover,
      fun _ => byteAt_install_outside s image init⟩
  · have hload : t = { s with status := .halted .imageTooLarge (trunc16 loadOffset) none } :=
      load_of_refused init ((loadRefused_iff _ _).2 hrefused)
    rw [hload]
    exact ⟨rfl, setStatus_frame s _⟩

end Sys2Proof.Machine
end

section

/-! # The sound timer is never read (10_state.md R40) -/

namespace Sys2Proof.Machine

/-- The state with another sound timer. -/
def State.withSt (s : State) (b : Byte) : State := { s with st := b }

/-- From two states that differ in ST alone, `f` answers states that differ in ST alone. -/
def IgnoresSt (f : State → Result) : Prop :=
  ∀ (s : State) (b : Byte), ∃ t u, f s = .next t ∧ f (s.withSt b) = .next u ∧ u.withSt 0 = t.withSt 0

theorem setVLogic_withSt (s : State) (b : Byte) (x : RegIdx) (v : Byte) :
    (s.withSt b).setVLogic x v = (s.setVLogic x v).withSt b := by
  unfold State.setVLogic State.withSt
  cases s.cfg.logicVf <;> rfl

theorem bumpI_withSt (s : State) (b : Byte) (x : RegIdx) : (s.withSt b).bumpI x = (s.bumpI x).withSt b := by
  unfold State.bumpI State.withSt
  cases s.cfg.ldstI <;> rfl

/-- A block transfer's state, its own change apart, differs in ST alone. -/
theorem bumpI_advance_withSt (s : State) (b : Byte) (x : RegIdx) :
    ((s.withSt b).bumpI x).advance.withSt 0 = (s.bumpI x).advance.withSt 0 := by
  rw [bumpI_withSt]
  rfl

/-- An instruction whose arm writes a logic result and advances. -/
theorem ignoresSt_of_setVLogic {i : Instr} {x : RegIdx} {f : State → Byte}
    (he : ∀ s, exec i s = .next (s.setVLogic x (f s)).advance) (hf : ∀ s b, f (s.withSt b) = f s) :
    IgnoresSt (exec i) := by
  refine fun s b => ⟨_, _, he s, he _, ?_⟩
  rw [setVLogic_withSt, hf]
  rfl

theorem ignoresSt_sys (nnn : Addr12) : IgnoresSt (exec (.sys nnn)) := by
  intro s b
  cases hp : s.cfg.sys with
  | nop => exact ⟨_, _, exec_sys_of_nop nnn hp, exec_sys_of_nop nnn hp, rfl⟩
  | halt => exact ⟨_, _, exec_sys_of_halt nnn hp, exec_sys_of_halt nnn hp, rfl⟩

theorem ignoresSt_ret : IgnoresSt (exec .ret) := by
  intro s b
  rcases List.eq_nil_or_concat' s.stack with h | ⟨older, a, h⟩
  · exact ⟨_, _, exec_ret_of_nil h, exec_ret_of_nil h, rfl⟩
  · exact ⟨_, _, exec_ret_of_append h, exec_ret_of_append h, rfl⟩

theorem ignoresSt_call (nnn : Addr12) : IgnoresSt (exec (.call nnn)) := by
  intro s b
  rcases Nat.lt_or_ge s.stack.length 16 with h | h
  · exact ⟨_, _, exec_call_of_lt nnn h, exec_call_of_lt nnn h, rfl⟩
  · exact ⟨_, _, exec_call_of_ge nnn h, exec_call_of_ge nnn h, rfl⟩

theorem ignoresSt_skp (x : RegIdx) : IgnoresSt (exec (.skp x)) := by
  intro s b
  rcases keyOperand_cases s x with ⟨k, h⟩ | ⟨h, -⟩
  · exact ⟨_, _, exec_skp_of_key h, exec_skp_of_key h, rfl⟩
  · exact ⟨_, _, exec_skp_of_none h, exec_skp_of_none h, rfl⟩

theorem ignoresSt_sknp (x : RegIdx) : IgnoresSt (exec (.sknp x)) := by
  intro s b
  rcases keyOperand_cases s x with ⟨k, h⟩ | ⟨h, -⟩
  · exact ⟨_, _, exec_sknp_of_key h, exec_sknp_of_key h, rfl⟩
  · exact ⟨_, _, exec_sknp_of_none h, exec_sknp_of_none h, rfl⟩

theorem ignoresSt_drw (x y : RegIdx) (n : Nibble) : IgnoresSt (exec (.drw x y n)) := by
  intro s b
  rcases drw_cases n s with ⟨hn, h⟩ | h
  · exact ⟨_, _, exec_drw_of_gt x y hn h, exec_drw_of_gt x y hn h, rfl⟩
  · exact ⟨_, _, exec_drw_of_le x y h, exec_drw_of_le x y h, rfl⟩

theorem ignoresSt_addIVx (x : RegIdx) : IgnoresSt (exec (.addIVx x)) := by
  intro s b
  cases hp : s.cfg.fx1eVf with
  | unchanged => exact ⟨_, _, exec_addIVx_of_unchanged x hp, exec_addIVx_of_unchanged x hp, rfl⟩
  | overflow12 => exact ⟨_, _, exec_addIVx_of_overflow12 x hp, exec_addIVx_of_overflow12 x hp, rfl⟩

theorem ignoresSt_ldBVx (x : RegIdx) : IgnoresSt (exec (.ldBVx x)) := by
  intro s b
  rcases Nat.lt_or_ge (s.dataAddr + 2) 4096 with h | h
  · exact ⟨_, _, exec_ldBVx_of_lt x h, exec_ldBVx_of_lt x h, rfl⟩
  · exact ⟨_, _, exec_ldBVx_of_ge x h, exec_ldBVx_of_ge x h, rfl⟩

theorem ignoresSt_ldMemVx (x : RegIdx) : IgnoresSt (exec (.ldMemVx x)) := by
  intro s b
  rcases Nat.lt_or_ge (s.dataAddr + x.toNat) 4096 with h | h
  · exact ⟨_, _, exec_ldMemVx_of_lt x h, exec_ldMemVx_of_lt x h, bumpI_advance_withSt (storeAtI s (s.regsUpTo x)) b x⟩
  · exact ⟨_, _, exec_ldMemVx_of_ge x h, exec_ldMemVx_of_ge x h, rfl⟩

theorem ignoresSt_ldVxMem (x : RegIdx) : IgnoresSt (exec (.ldVxMem x)) := by
  intro s b
  rcases Nat.lt_or_ge (s.dataAddr + x.toNat) 4096 with h | h
  · exact ⟨_, _, exec_ldVxMem_of_lt x h, exec_ldVxMem_of_lt x h,
      bumpI_advance_withSt (s.setRegsFrom0 (bytesAtI s (x.toNat + 1))) b x⟩
  · exact ⟨_, _, exec_ldVxMem_of_ge x h, exec_ldVxMem_of_ge x h, rfl⟩

/-- No instruction's meaning depends on ST. -/
theorem ignoresSt_exec (i : Instr) : IgnoresSt (exec i) := by
  cases i with
  | sys nnn => exact ignoresSt_sys nnn
  | ret => exact ignoresSt_ret
  | call nnn => exact ignoresSt_call nnn
  | orReg x y => exact ignoresSt_of_setVLogic (fun _ => rfl) fun _ _ => rfl
  | andReg x y => exact ignoresSt_of_setVLogic (fun _ => rfl) fun _ _ => rfl
  | xorReg x y => exact ignoresSt_of_setVLogic (fun _ => rfl) fun _ _ => rfl
  | drw x y n => exact ignoresSt_drw x y n
  | skp x => exact ignoresSt_skp x
  | sknp x => exact ignoresSt_sknp x
  | addIVx x => exact ignoresSt_addIVx x
  | ldBVx x => exact ignoresSt_ldBVx x
  | ldMemVx x => exact ignoresSt_ldMemVx x
  | ldVxMem x => exact ignoresSt_ldVxMem x
  | _ => exact fun s b => ⟨_, _, rfl, rfl, rfl⟩

theorem ignoresSt_waitStep (r : RegIdx) : IgnoresSt fun s => .next (waitStep r s) := by
  intro s b
  refine ⟨_, _, rfl, rfl, ?_⟩
  cases hkeys : s.pressedKeys with
  | nil =>
    have hnone (k : Key) : s.isPressed k = false :=
      Bool.eq_false_iff.2 fun hk => by simp [← mem_pressedKeys, hkeys] at hk
    rw [waitStep_of_none r hnone, waitStep_of_none (s := s.withSt b) r hnone]
    rfl
  | cons k ks =>
    rw [waitStep_of_cons r hkeys, waitStep_of_cons (s := s.withSt b) r hkeys]
    rfl

/-- The cycle reads the status, PC and memory, then runs a meaning that ignores ST. -/
theorem ignoresSt_step : IgnoresSt step := by
  intro s b
  cases hs : s.status with
  | halted e p o => exact ⟨_, _, step_of_halted hs, step_of_halted hs, rfl⟩
  | waitingForKey r =>
    rw [step_of_waiting hs, step_of_waiting (s := s.withSt b) hs]
    exact ignoresSt_waitStep r s b
  | running =>
    cases hf : s.fetch with
    | none => exact ⟨_, _, step_of_fetch_none hs hf, step_of_fetch_none hs hf, rfl⟩
    | some w =>
      cases hd : decode w with
      | error e => exact ⟨_, _, step_of_decode_error hs hf hd, step_of_decode_error hs hf hd, rfl⟩
      | ok i =>
        rw [step_of_decode_ok hs hf hd, step_of_decode_ok (s := s.withSt b) hs hf hd]
        exact ignoresSt_exec i s b

/-- Settles O57: every kind of cycle ignores ST. -/
theorem soundTimerIsNeverRead : Obligations.SoundTimerIsNeverRead := ignoresSt_step

end Sys2Proof.Machine
end
